-- ==== Sys2Proof/Word.lean ====
section
/-! DEFINITION. The word types of the block (00_scope.md rules R8, R9, R11, R13; 10_state.md rule R25).
`wT` is the width of the bit time, the open parameter `W_T` of rule R8; every type that depends on it takes it as
an argument. -/

namespace Sys2Proof

/-- The byte `b` of a command; bit 0 is the least significant bit (rule R11). -/
abbrev Byte := BitVec 8

/-- A bit time `t`: `W_T` bits, unsigned (rules R8, R62). -/
abbrev BitTime (wT : Nat) := BitVec wT

/-- A delay value: `W_D = W_T + 4` bits, unsigned (rule R9). -/
abbrev Delay (wT : Nat) := BitVec (wT + 4)

/-- The 9-bit value `{1, b}` that is scanned (rules R25, R61). -/
abbrev FrameWord := BitVec 9

/-- The index of the next bit to scan: a 4-bit field (rule R25). -/
abbrev Index := BitVec 4

/-- A signal level: `false` is level 0 (the start bit's), `true` is level 1 (the stop bit's) (rule R13). -/
abbrev Level := Bool

/-- A command word `{t, b}`: `W_T + 8` bits (rule R60). -/
abbrev CommandWord (wT : Nat) := BitVec (wT + 8)

end Sys2Proof
end

