-- ==== Sys2Proof/Config.lean ====
section
/-! DEFINITION. What is fixed for one machine: the bound on its width and the reference width, the frame constants, and
the free values, which the spec leaves open and nothing here may constrain. -/

namespace Sys2Proof.Config

/-- `W_T` is an open parameter with `W_T >= 1` (rule R8, 00_scope.md): what a width must meet. -/
abbrev widthOk (wT : Nat) : Prop := 1 ≤ wT

/-- The reference configuration `W_T = 16` of rule R8, at which spec/opcode_table.json is written. Log entry 1: it is
used for that table and for `State.reset` only; the machine is written for every width. -/
abbrev refWT : Nat := 16

/-- The start bit's value (rule R7). -/
def startBit : Level := false

/-- The stop bit's value (rule R7). -/
def stopBit : Level := true

/-- Data bits per byte (rule R7). -/
def dataBits : Nat := 8

/-- Bits scanned after the start bit: bits 0 to 7 are data, bit 8 is the stop bit (rule R7). -/
def scannedBits : Nat := 9

/-! ## Free values
Each is an opaque constant applied to the step counter of `State`: no value of it can be proved or computed. -/

/-- OUTD after a reset step: "no value" (rules R31, R150; U5). Log entry 3. -/
opaque freeOutd (wT n : Nat) : Delay wT
/-- LEVEL after a reset step (rules R31, R150; U5). Log entry 3. -/
opaque freeLevel (n : Nat) : Level
/-- ACC after a reset step (rules R31, R150; U5). Log entry 3. -/
opaque freeAcc (wT n : Nat) : Delay wT
/-- T after a reset step (rules R31, R150; U5). Log entry 3. -/
opaque freeT (wT n : Nat) : BitTime wT
/-- FRAME after a reset step (rules R31, R150; U5). Log entry 3. -/
opaque freeFrame (n : Nat) : FrameWord
/-- IDX after a reset step (rules R31, R150; U5). Log entry 3. -/
opaque freeIdx (n : Nat) : Index
/-- The port `out_delay` while `out_valid = 0` (rule R23; U4). Log entry 6. -/
opaque freeOutDelay (wT n : Nat) : Delay wT
/-- The port `rst` where nothing in `State` says what the environment drives (rule R20). Log entry 5. -/
opaque freeRst (n : Nat) : Bool
/-- The port `in_valid`, likewise (rule R20). Log entry 5. -/
opaque freeInValid (n : Nat) : Bool
/-- The port `in_byte`, likewise, and where the host's program offers no command (rules R20, R156). Log entry 5. -/
opaque freeInByte (n : Nat) : Byte
/-- The port `in_t`, likewise, and where the host's program offers no command (rules R20, R156). Log entry 5. -/
opaque freeInT (wT n : Nat) : BitTime wT
/-- The port `out_ready`, where nothing in `State` says what the consumer drives (rule R20). Log entry 5. -/
opaque freeOutReady (n : Nat) : Bool

end Sys2Proof.Config
end

