-- ==== Sys2Proof/Syntax.lean ====
section
/-! DEFINITION. The commands of the block (30_encoding.md rule R63, spec/opcode_table.json), and the source notation
of commands and programs (rules R67 to R69). -/

namespace Sys2Proof

/-- One constructor for each row of spec/opcode_table.json. The bit time is an unsigned integer (rule R62), so that an
instruction belongs to no width; which widths it fits is `Instr.wf`'s to say (log entry 21). -/
inductive Instr where
  /-- ILLEGAL: the command words with `t == 0`; the byte field stays readable (rules R63, R64). -/
  | illegal (b : Byte)
  /-- ENCODE b, t (rule R80). -/
  | encode (b : Byte) (t : Nat)
deriving DecidableEq, Repr

/-- A line of a program's source (rules R67 to R69). Operands are unbounded numbers: what is out of range is for the
assembler to refuse, never to truncate (rule R67). -/
inductive AsmLine where
  /-- `ENCODE <b>, <t>` (rule R67). -/
  | encode (b t : Nat)
  /-- `ENCODEBUF [<b0>, ..., <bn-1>], <t>` (rule R68). -/
  | encodeBuf (bs : List Nat) (t : Nat)
  /-- `ENCODESTR "<text>", <t>`, the text as its characters (rule R68). -/
  | encodeStr (text : List Char) (t : Nat)
  /-- `.word <w>` (rule R69). -/
  | word (w : Nat)
  /-- `RESET` (rule R69). -/
  | reset
  /-- `RESET @ <s>` (rule R69). -/
  | resetAt (step : Nat)
deriving DecidableEq, Repr

/-- A line of a program assembled for one width: what the host does with it (rule R69). -/
inductive HostLine (wT : Nat) where
  /-- Offer this command word until it is accepted. -/
  | offer (w : CommandWord wT)
  /-- Drive `rst = 1` in the first step in which every earlier command has been accepted and the block is idle. -/
  | reset
  /-- Drive `rst = 1` in exactly this step. -/
  | resetAt (step : Nat)
deriving DecidableEq, Repr

/-- A program's consumer policy (rule R69). -/
inductive Policy where
  /-- `out_ready = 1` in every step. -/
  | ready
  /-- `out_ready = 0` for the first `n` steps and 1 after. -/
  | stall (n : Nat)
deriving DecidableEq, Repr

end Sys2Proof
end

