-- ==== Sys2Proof/WellFormed.lean ====
section
/-! DEFINITION. Which commands and source lines are well formed, for a machine of width `wT`. -/

namespace Sys2Proof

/-- The field `t` is an unsigned integer from 0 to `2^W_T - 1` (rule R62): a greater bit time is in no command word. -/
def Instr.fits (wT : Nat) : Instr → Bool
  | .illegal _ => true
  | .encode _ t => decide (t < 2 ^ wT)

/-- ENCODE is selected when `t != 0` (rule R63); an ENCODE term with `t = 0` stands for no command word of its own. -/
def Instr.wf (wT : Nat) : Instr → Bool
  | .illegal _ => true
  | .encode _ t => decide (0 < t) && decide (t < 2 ^ wT)

/-- `<b>` is an integer from 0 to 255 (rule R67). -/
def byteInRange (b : Nat) : Bool := decide (b < 2 ^ 8)

/-- `<t>` is an integer from 1 to `2^W_T - 1` (rule R67). -/
def bitTimeInRange (wT t : Nat) : Bool := decide (0 < t) && decide (t < 2 ^ wT)

/-- A raw word has `W_T + 8` bits (rules R60, R69). -/
def wordInRange (wT w : Nat) : Bool := decide (w < 2 ^ (wT + 8))

/-- The lines the assembler takes; it refuses every other one (rules R67, R68; U11). -/
def AsmLine.wf (wT : Nat) : AsmLine → Bool
  | .encode b t => byteInRange b && bitTimeInRange wT t
  | .encodeBuf bs t => !bs.isEmpty && bs.all byteInRange && bitTimeInRange wT t
  | .encodeStr cs t => !cs.isEmpty && cs.all (fun c => byteInRange c.toNat) && bitTimeInRange wT t
  | .word w => wordInRange wT w
  | .reset => true
  | .resetAt _ => true

end Sys2Proof
end

