-- ==== Sys2Proof/Decode.lean ====
section
/-! DEFINITION. Command words: their fields, the decoder, the encoder (30_encoding.md rules R60 to R66), and the
assembler from source lines to what the host does (rules R67 to R69), for every width `wT`. -/

namespace Sys2Proof

/-- Field `b`, bits `[7:0]` (rule R60). -/
def commandByte {wT : Nat} (w : CommandWord wT) : Byte := w.extractLsb' 0 8

/-- Field `t`, bits `[W_T+7:8]` (rule R60). -/
def commandTime {wT : Nat} (w : CommandWord wT) : BitTime wT := w.extractLsb' 8 wT

/-- The command word `{t, b}`: `in_t` above `in_byte` (rule R60). -/
def commandWord {wT : Nat} (b : Byte) (t : BitTime wT) : CommandWord wT := t ++ b

/-- The decoder of rule R63. It is total: the words with `t == 0` are ILLEGAL, every other one is ENCODE. -/
def decode {wT : Nat} (w : CommandWord wT) : Instr :=
  if commandTime w = 0#wT then .illegal (commandByte w) else .encode (commandByte w) (commandTime w).toNat

/-- Why a string of bits is no command word of a machine. -/
inductive DecodeReject where
  /-- It has not `W_T + 8` bits: "Every command has the same length" (rule R66). -/
  | wrongLength
  /-- The number given for its bits does not fit them. -/
  | tooLarge
deriving DecidableEq, Repr

/-- The decoder of a machine of width `wT` on `nbits` bits; it rejects by name what is no command word (rule R66). -/
def decodeBits (wT nbits w : Nat) : Except DecodeReject Instr :=
  if nbits = wT + 8 then
    if w < 2 ^ nbits then .ok (decode (BitVec.ofNat (wT + 8) w)) else .error .tooLarge
  else .error .wrongLength

/-- What the decoder reads from a word numbered as spec/opcode_table.json numbers it: the table is written at `W_T = 16`
(its `config`), and its numbering is the command word's own (rule R60; `width_bits` 24). -/
def decodeTableWord (nbits w : Nat) : Option Instr :=
  match decodeBits Config.refWT nbits w with
  | .ok i => some i
  | .error _ => none

/-- The command word of an instruction that fits the width (rules R60, R67: `(t << 8) | b`). -/
def encode (wT : Nat) : Instr → CommandWord wT
  | .illegal b => commandWord b 0#wT
  | .encode b t => commandWord b (BitVec.ofNat wT t)

/-! ## The assembler (rules R67 to R69) -/

/-- The word of `ENCODE <b>, <t>` with both operands in range: `(t << 8) | b` (rule R67). -/
def encodeOperands (wT t b : Nat) : CommandWord wT := commandWord (BitVec.ofNat 8 b) (BitVec.ofNat wT t)

/-- What a well-formed line expands to (rules R67 to R69). -/
def AsmLine.expand (wT : Nat) : AsmLine → List (HostLine wT)
  | .encode b t => [.offer (encodeOperands wT t b)]
  | .encodeBuf bs t => bs.map (fun b => .offer (encodeOperands wT t b))
  | .encodeStr cs t => cs.map (fun c => .offer (encodeOperands wT t c.toNat))
  | .word w => [.offer (BitVec.ofNat (wT + 8) w)]
  | .reset => [.reset]
  | .resetAt n => [.resetAt n]

/-- One line; `none` is the assembler's refusal (rules R67, R68; U11). -/
def assembleLine (wT : Nat) (l : AsmLine) : Option (List (HostLine wT)) :=
  if l.wf wT then some (l.expand wT) else none

/-- A whole source: refused as soon as one of its lines is. -/
def assemble (wT : Nat) : List AsmLine → Option (List (HostLine wT))
  | [] => some []
  | l :: ls =>
    match assembleLine wT l, assemble wT ls with
    | some x, some xs => some (x ++ xs)
    | _, _ => none

end Sys2Proof
end

