-- ==== Sys2Proof/Machine/State.lean ====
section
/-! DEFINITION. The state: the block's registers (10_state.md rule R25), the ports' values (rule R21), the consumer's
streams (41_output_stream.md rule R112) and what the environment will drive (rules R20, R69). -/

namespace Sys2Proof.Machine

/-- The block's internal registers, exactly those of rule R25, for every width `wT` of the bit time. -/
structure Block (wT : Nat) where
  /-- BUSY: a frame operation is in progress. -/
  busy : Bool
  /-- FAULT: the sticky fault. -/
  fault : Bool
  /-- OUTV: the output register is full. -/
  outv : Bool
  /-- OUTD: the delay being offered. -/
  outd : Delay wT
  /-- LEVEL: the level of the run being accumulated (rule R26). -/
  level : Level
  /-- ACC: that run's duration so far (rule R26). -/
  acc : Delay wT
  /-- T: the bit time latched at acceptance. -/
  t : BitTime wT
  /-- FRAME: the 9-bit value `{1, b}`. -/
  frame : FrameWord
  /-- IDX: the index of the next bit to scan; 9 means the final push is due (rule R27). -/
  idx : Index
deriving DecidableEq, Repr

/-- The values on the block's input ports in one step (rule R21). -/
structure Inputs (wT : Nat) where
  rst : Bool
  inValid : Bool
  inByte : Byte
  inT : BitTime wT
  outReady : Bool
deriving DecidableEq, Repr

/-- The values on the block's output ports in one step (rule R21). -/
structure Outputs (wT : Nat) where
  inReady : Bool
  outValid : Bool
  outDelay : Delay wT
  busy : Bool
  fault : Bool
deriving DecidableEq, Repr

/-- A host's program being run, in the notation of rule R69. -/
structure Running (wT : Nat) where
  /-- The lines not yet done. -/
  lines : List (HostLine wT)
  /-- The consumer's policy. -/
  policy : Policy
  /-- The number of the coming step; step 0 is the implicit reset step. -/
  now : Nat
deriving DecidableEq, Repr

/-- Why the machine stops. -/
inductive Fault where
  /-- Raised by an advance step with IDX from 10 to 15: "`fault` if a model ever reaches one, since no rule defines a
  step from it" (93_implementation_defined.md U10). Safe: the model stops; no state reachable from reset gets here
  (rules R27, R29). Log entry 7. BadBitTime is not a stop: it is the FAULT register (60_exceptions.md rule R130). -/
  | indexOutOfRange
deriving DecidableEq, Repr

/-- Why the model declines a step. -/
inductive Refusal where
  /-- Raised by `exec` for a row of the opcode table that has no meaning yet. Safe. No row is left in this case. -/
  | notModelled (mnemonic : String)
  /-- Raised by the meaning of ENCODE for a bit time of `2^W_T` or more, which no command word of the machine carries
  (rule R62); an operand out of range is refused and never truncated (rule R67, U11). Safe: no step gets here, since a
  decoded bit time fits. Log entry 21. -/
  | operandOutOfRange
deriving DecidableEq, Repr

/-- All that a machine of width `wT` holds. -/
structure Mach (wT : Nat) where
  /-- The block's registers (rule R25). -/
  block : Block wT
  /-- The output stream S: what the consumer has received since the last reset, oldest first (rule R112). -/
  stream : List (Delay wT)
  /-- The streams of earlier reset segments, oldest first: "Delays already transferred stay with the consumer"
  (rule R151). Log entry 8. -/
  segments : List (List (Delay wT))
  /-- The port values the environment drives in the coming steps, first one first (rule R20). Log entry 5. -/
  script : List (Inputs wT)
  /-- The program that drives the ports once the script is empty (rule R69). Log entry 5. -/
  program : Option (Running wT)
  /-- The model's own: the number of steps taken, which indexes the free values. Log entry 15. -/
  stepNo : Nat
deriving DecidableEq, Repr

/-- The state of the whole machine: its open parameter, and what a machine of that width holds. -/
structure State where
  /-- `W_T` (rule R8): the width of the bit time. No step changes it. Log entry 1. -/
  wT : Nat
  /-- The registers, the consumer's streams and the environment. -/
  mach : Mach wT
deriving DecidableEq, Repr

/-- The registers right after reset: BUSY = FAULT = OUTV = 0 (rule R31). The other six hold no value in the spec.
DESIGN CHOICE (log entry 2, unsafe): zero. -/
def Block.atReset (wT : Nat) : Block wT where
  busy := false
  fault := false
  outv := false
  outd := 0
  level := false
  acc := 0
  t := 0
  frame := 0
  idx := 0

/-- A machine right after reset (rules R31, R112). Nothing is placed in the environment. -/
def Mach.atReset (wT : Nat) : Mach wT where
  block := Block.atReset wT
  stream := []
  segments := []
  script := []
  program := none
  stepNo := 0

/-- The machine of width `wT` right after reset. -/
def State.resetAt (wT : Nat) : State where
  wT := wT
  mach := Mach.atReset wT

/-- The machine right after reset, at the reference width (log entry 1). -/
def State.reset : State := State.resetAt Config.refWT

end Sys2Proof.Machine
end

