-- ==== Sys2Proof/Machine/Flags.lean ====
section
/-! DEFINITION. The block's flags (10_state.md rule R33): what sets and clears each, and the output ports that show
them (rules R22 to R24). -/

namespace Sys2Proof.Machine

/-- BUSY is set by acceptance with `t != 0` (rules R33, R84). -/
def Block.setBusy {wT : Nat} (r : Block wT) : Block wT := { r with busy := true }

/-- BUSY is cleared by the final push (rules R33, R87). -/
def Block.clearBusy {wT : Nat} (r : Block wT) : Block wT := { r with busy := false }

/-- FAULT is set by acceptance with `t == 0` (rules R33, R130). -/
def Block.setFault {wT : Nat} (r : Block wT) : Block wT := { r with fault := true }

/-- OUTV is set by Emit (rules R33, R110). -/
def Block.setOutv {wT : Nat} (r : Block wT) : Block wT := { r with outv := true }

/-- OUTV is cleared by a transfer (rules R33, R111). -/
def Block.clearOutv {wT : Nat} (r : Block wT) : Block wT := { r with outv := false }

/-- The cause code of the exception taken: BadBitTime is code 1, implicit in `fault = 1`; there is no cause register
(rules R130, R137). -/
def Block.causeCode {wT : Nat} (r : Block wT) : Option Nat := if r.fault then some 1 else none

/-- `in_ready = (BUSY == 0) and (FAULT == 0)` (rule R22). -/
def Block.inReady {wT : Nat} (r : Block wT) : Bool := !r.busy && !r.fault

/-- The idle condition `BUSY == 0` and `OUTV == 0` (rule R119). -/
def Block.idle {wT : Nat} (r : Block wT) : Bool := !r.busy && !r.outv

/-- The output ports, from the registers at the start of the step (rules R22 to R24, R157). While `out_valid = 0`,
`out_delay` is a free value (rule R23; log entry 6). -/
def Block.outputs {wT : Nat} (r : Block wT) (n : Nat) : Outputs wT where
  inReady := r.inReady
  outValid := r.outv
  outDelay := if r.outv then r.outd else Config.freeOutDelay wT n
  busy := r.busy
  fault := r.fault

/-- The output ports of the machine in the coming step. -/
def Mach.outputs {wT : Nat} (m : Mach wT) : Outputs wT := m.block.outputs m.stepNo

end Sys2Proof.Machine
end

