-- ==== Sys2Proof/Machine/Operands.lean ====
section
/-! DEFINITION. Operand assembly (30_encoding.md rules R61, R62) and the frame of a byte (40_encode.md rule R81). -/

namespace Sys2Proof.Machine

/-- `V = {1, b}`: the byte with the implicit stop bit at bit 8 (rule R61; 90_conflicts.md C1). -/
def frameWord (b : Byte) : FrameWord := 1#1 ++ b

/-- `zext_W_D(t)` (rules R12, R62). -/
def zextDelay {wT : Nat} (t : BitTime wT) : Delay wT := t.setWidth (wT + 4)

/-- The bits of a 9-bit value in scan order, bit 0 first (rule R82). -/
def scanOrder (v : FrameWord) : List Bool := (List.range Config.scannedBits).map v.getLsbD

/-- The 10-bit frame `F[0..9]` of a byte: start bit, data bits least significant first, stop bit (rules R41, R81). -/
def frameBits (b : Byte) : List Bool :=
  [Config.startBit] ++ (List.range Config.dataBits).map b.getLsbD ++ [Config.stopBit]

/-- Frame position `j` of the 10-bit frame whose scanned bits are in `v`: `F[0] = 0`, `F[j] = V[j-1]` (rule R81). -/
def framePos (v : FrameWord) : Nat → Bool
  | 0 => Config.startBit
  | j + 1 => v.getLsbD j

end Sys2Proof.Machine
end

