-- ==== Sys2Proof/Machine/Ops.lean ====
section
/-! DEFINITION. The operations on the registers that steps and meanings share: the guards of a step, Emit, transfer,
taking the one exception and leaving it by reset, and acceptance. -/

namespace Sys2Proof.Machine

/-- Apply `f` to the state of an outcome that answers next. -/
def mapNext {σ τ φ ρ : Type} (f : σ → τ) : Host.Outcome σ φ ρ → Host.Outcome τ φ ρ
  | .next s => .next (f s)
  | .fault x => .fault x
  | .refused x => .refused x

/-- Change only the block's registers. -/
def Mach.onBlock {wT : Nat} (f : Block wT → Block wT) (m : Mach wT) : Mach wT := { m with block := f m.block }

/-! ## The guards of a step (10_state.md rule R30) -/

/-- `xfer`: a delay is offered and the consumer takes it (rules R30, R111). -/
def Block.xfer {wT : Nat} (r : Block wT) (inp : Inputs wT) : Bool := r.outv && inp.outReady

/-- `adv`: the scan moves in this step (rules R30, R85 to R87). -/
def Block.adv {wT : Nat} (r : Block wT) : Bool := r.busy && !r.fault && !r.outv

/-- `accept`: a command is offered and the block takes it (rules R22, R30, R84). -/
def Block.accepts {wT : Nat} (r : Block wT) (inp : Inputs wT) : Bool := inp.inValid && r.inReady

/-! ## The output channel (41_output_stream.md) -/

/-- `Emit(d)`: load the output register (rule R110). -/
def Block.emit {wT : Nat} (d : Delay wT) (r : Block wT) : Block wT := ({ r with outd := d } : Block wT).setOutv

/-- A transfer: the consumer receives OUTD, appended to its stream, and OUTV is cleared (rule R111). -/
def Mach.transfer {wT : Nat} (m : Mach wT) : Mach wT :=
  { m with block := m.block.clearOutv, stream := m.stream ++ [m.block.outd] }

/-- The transfer of a step, where its guard holds. -/
def Mach.transferIf {wT : Nat} (c : Bool) (m : Mach wT) : Mach wT := if c then m.transfer else m

/-! ## The exception, and the way out of it (60_exceptions.md) -/

/-- `raise BadBitTime`: enter the FAULT state; nothing else happens (rules R130, R137). -/
def Block.raiseBadBitTime {wT : Nat} (r : Block wT) : Block wT := r.setFault

/-- A reset step on the registers: BUSY, FAULT and OUTV are cleared and the other six registers hold no value, which
here is a free value each (rules R31, R150; log entry 3). It is the only way out of the FAULT state (rules R131, R138). -/
def Block.resetStep {wT : Nat} (n : Nat) : Block wT where
  busy := false
  fault := false
  outv := false
  outd := Config.freeOutd wT n
  level := Config.freeLevel n
  acc := Config.freeAcc wT n
  t := Config.freeT wT n
  frame := Config.freeFrame n
  idx := Config.freeIdx n

/-- A reset in step `n`: the registers are reset, what was transferred stays with the consumer, and its stream starts
again empty (rules R150, R151). -/
def Mach.resetStep {wT : Nat} (n : Nat) (m : Mach wT) : Mach wT :=
  { m with block := Block.resetStep n, stream := [], segments := m.segments ++ [m.stream] }

/-! ## Acceptance (40_encode.md rule R84) -/

/-- The registers an accepted command with `t != 0` writes (rule R84). -/
def Block.startFrame {wT : Nat} (b : Byte) (t : BitTime wT) (r : Block wT) : Block wT :=
  ({ r with t := t, frame := frameWord b, level := Config.startBit, acc := zextDelay t, idx := 0#4 } : Block wT).setBusy

/-- What a command does on acceptance (rule R84): BadBitTime where `t == 0`, else a frame operation starts. -/
def Block.accept {wT : Nat} (b : Byte) (t : BitTime wT) (r : Block wT) : Block wT :=
  if t = 0#wT then r.raiseBadBitTime else r.startFrame b t

/-- A command offered to the block: accepted where `in_ready = 1`, else nothing happens (rules R22, R30, R132; log entry
11). `f` is what its acceptance does to the registers. -/
def State.offer (f : (wT : Nat) → Block wT → Block wT) (s : State) : State :=
  { wT := s.wT, mach := if s.mach.block.inReady then s.mach.onBlock (f s.wT) else s.mach }

end Sys2Proof.Machine
end

