-- ==== Sys2Proof/Machine/Encode.lean ====
section
/-! DEFINITION. ENCODE (40_encode.md): its acceptance, and the advance steps of the frame operation it starts. -/

namespace Sys2Proof.Machine

/-- ENCODE b, t offered to the block (rules R80, R84). Where `in_ready = 0` the command is not accepted and nothing
happens (rules R22, R132; log entry 11). A bit time that no word of this machine carries is refused, never truncated
(rules R62, R67; U11; log entry 21). -/
def execEncode (b : Byte) (t : Nat) (s : State) : Host.Outcome State Fault Refusal :=
  if t < 2 ^ s.wT then
    .next (s.offer (fun wT => Block.accept b (BitVec.ofNat wT t)))
  else .refused .operandOutOfRange

/-- Scan step, same level: extend the accumulator by one bit time (rule R85). -/
def Block.scanSame {wT : Nat} (r : Block wT) : Block wT :=
  { r with acc := r.acc + zextDelay r.t, idx := r.idx + 1#4 }

/-- Scan step, level change: push the accumulator, flip level, reset the accumulator to one bit time (rule R86). -/
def Block.scanChange {wT : Nat} (r : Block wT) : Block wT :=
  { r.emit r.acc with level := !r.level, acc := zextDelay r.t, idx := r.idx + 1#4 }

/-- Final push: the run that contains the stop bit (rule R87). -/
def Block.finalPush {wT : Nat} (r : Block wT) : Block wT := (r.emit r.acc).clearBusy

/-- `FRAME[IDX]` (rules R85, R86). -/
def Block.scannedBit {wT : Nat} (r : Block wT) : Bool := r.frame.getLsbD r.idx.toNat

/-- One advance step (rules R85 to R87). IDX from 10 to 15 has no rule (U10; log entry 7). -/
def Block.advance {wT : Nat} (r : Block wT) : Host.Outcome (Block wT) Fault Refusal :=
  if r.idx.toNat ≤ 8 then
    if r.scannedBit = r.level then .next r.scanSame else .next r.scanChange
  else if r.idx.toNat = 9 then .next r.finalPush
  else .fault .indexOutOfRange

end Sys2Proof.Machine
end

