-- ==== Sys2Proof/Machine/Illegal.lean ====
section
/-! DEFINITION. ILLEGAL: the command words with `t == 0` (30_encoding.md rule R64, 60_exceptions.md rule R130). -/

namespace Sys2Proof.Machine

/-- ILLEGAL b offered to the block: acceptance raises BadBitTime, and the faulting byte is not kept (rule R130). Where
`in_ready = 0` the command is not accepted and nothing happens (rules R22, R132, R138; log entry 11). -/
def execIllegal (_b : Byte) (s : State) : Host.Outcome State Fault Refusal :=
  .next (s.offer (fun _ => Block.raiseBadBitTime))

end Sys2Proof.Machine
end

