-- ==== Sys2Proof/Machine/Dispatch.lean ====
section
/-! DEFINITION. One arm per command of the opcode table. -/

namespace Sys2Proof.Machine

def exec (i : Instr) (s : State) : Host.Outcome State Fault Refusal :=
  match i with
  | .illegal b => Sys2Proof.Machine.execIllegal b s
  | .encode b t => Sys2Proof.Machine.execEncode b t s

end Sys2Proof.Machine
end

