-- ==== Sys2Proof/Machine/Environment.lean ====
section
/-! DEFINITION. The environment: what the host and the consumer drive on the input ports in a step (10_state.md rules
R20, R21), from the script, else from a running program (30_encoding.md rule R69), else unconstrained. -/

namespace Sys2Proof.Machine

/-- The consumer's policy in step `n`; step 0 is the reset step, so the first `k` steps of a stall are 1 to `k`
(rule R69; log entry 18). DESIGN CHOICE (log entry 23): a stalled consumer drives 0 in step 0 as well. -/
def Policy.outReady (n : Nat) : Policy → Bool
  | .ready => true
  | .stall k => decide (k < n)

/-- Is this line still to be done after step `now`? A `RESET @ k` is over once step `k` has come (rule R69). -/
def HostLine.pendingAfter {wT : Nat} (now : Nat) : HostLine wT → Bool
  | .resetAt k => decide (now < k)
  | .offer _ => true
  | .reset => true

/-- The next command: the first line that offers one. The host offers each command from the step after the previous one
was accepted (rule R69); no directive holds one back (log entry 12). -/
def nextCommand {wT : Nat} : List (HostLine wT) → Option (CommandWord wT)
  | .offer w :: _ => some w
  | .reset :: ls => nextCommand ls
  | .resetAt _ :: ls => nextCommand ls
  | [] => none

/-- The lines without the next command. -/
def dropCommand {wT : Nat} : List (HostLine wT) → List (HostLine wT)
  | .offer _ :: ls => ls
  | .reset :: ls => .reset :: dropCommand ls
  | .resetAt k :: ls => .resetAt k :: dropCommand ls
  | [] => []

/-- Has every command before some `RESET` line been accepted (rule R69)? -/
def resetReached {wT : Nat} : List (HostLine wT) → Bool
  | .reset :: _ => true
  | .resetAt _ :: ls => resetReached ls
  | .offer _ :: _ => false
  | [] => false

/-- The lines without the `RESET` lines of which that is so. By rule R69 they name the same step; that one reset step
does for all of them, two in a row among them, is DEDUCED (log entry 12). -/
def dropResets {wT : Nat} : List (HostLine wT) → List (HostLine wT)
  | .reset :: ls => dropResets ls
  | .resetAt k :: ls => .resetAt k :: dropResets ls
  | .offer w :: ls => .offer w :: ls
  | [] => []

/-- Does a `RESET` directive take effect in this step: every command before it has been accepted and the block is idle
(rule R69)? Step 0 takes none (log entry 18). -/
def Running.resetDue {wT : Nat} (p : Running wT) (r : Block wT) : Bool :=
  p.now != 0 && (resetReached p.lines && r.idle)

/-- The lines that are left once the directives of this step have been taken, every `RESET` that is due among them (log
entry 12). -/
def Running.linesLeft {wT : Nat} (p : Running wT) (r : Block wT) : List (HostLine wT) :=
  (if p.resetDue r then dropResets p.lines else p.lines).filter (HostLine.pendingAfter p.now)

/-- `rst` in this step: the implicit reset of step 0, a `RESET @ s` of this step wherever it stands ("in step s exactly,
whatever the block is doing"), or a `RESET` that is due (rule R69). -/
def Running.rst {wT : Nat} (p : Running wT) (r : Block wT) : Bool :=
  p.now == 0 || p.lines.contains (.resetAt p.now) || p.resetDue r

/-- The command word the host offers in this step, if one is left: none in step 0 (rule R69; log entry 18). -/
def Running.offered {wT : Nat} (p : Running wT) : Option (CommandWord wT) :=
  if p.now = 0 then none else nextCommand p.lines

/-- The input ports that a running program drives (rule R69). Where it offers no command, `in_byte` and `in_t` are free
values (rule R156; log entry 19). -/
def Running.inputs {wT : Nat} (p : Running wT) (r : Block wT) (n : Nat) : Inputs wT where
  rst := p.rst r
  inValid := p.offered.isSome
  inByte := match p.offered with
    | some w => commandByte w
    | none => Config.freeInByte n
  inT := match p.offered with
    | some w => commandTime w
    | none => Config.freeInT wT n
  outReady := Policy.outReady p.now p.policy

/-- The program after this step: a command that was accepted is done, the directives of the step are done, and the
next step comes. -/
def Running.afterStep {wT : Nat} (p : Running wT) (r : Block wT) : Running wT where
  lines := if p.offered.isSome && !p.rst r && r.inReady then dropCommand (p.linesLeft r) else p.linesLeft r
  policy := p.policy
  now := p.now + 1

/-- An environment of which nothing is known (rule R20; log entry 5). -/
def freeInputs (wT n : Nat) : Inputs wT where
  rst := Config.freeRst n
  inValid := Config.freeInValid n
  inByte := Config.freeInByte n
  inT := Config.freeInT wT n
  outReady := Config.freeOutReady n

/-- The values on the input ports in the coming step: the script's first sample, else the program's, else free
(log entries 5 and 20). -/
def Mach.inputs {wT : Nat} (m : Mach wT) : Inputs wT :=
  match m.script, m.program with
  | i :: _, _ => i
  | [], some p => p.inputs m.block m.stepNo
  | [], none => freeInputs wT m.stepNo

/-- The environment's side of the coming step: the script's first sample is used up, else the program moves on; the step
is counted. -/
def Mach.moveOn {wT : Nat} (m : Mach wT) : Mach wT :=
  { m with
    script := m.script.tail
    program := if m.script.isEmpty then m.program.map (fun p => p.afterStep m.block) else m.program
    stepNo := m.stepNo + 1 }

/-- Start a program: its step 0, the implicit reset, is the coming step (rule R69; log entry 9). -/
def Mach.load {wT : Nat} (lines : List (HostLine wT)) (policy : Policy) (m : Mach wT) : Mach wT :=
  { m with script := [], program := some { lines := lines, policy := policy, now := 0 } }

/-- Assemble a source for the machine's width and start it; `none` is the assembler's refusal (rules R67 to R69). DESIGN
CHOICE (log entry 25): the consumer policy that the program states is given beside the source, not in its text. -/
def State.loadSource (s : State) (source : List AsmLine) (policy : Policy) : Option State :=
  match assemble s.wT source with
  | some ls => some { wT := s.wT, mach := s.mach.load ls policy }
  | none => none

/-- Has the program reached its end state (rule R69)? Either it is idle with every line done, or it has faulted with
nothing left to transfer and no reset directive that can still act. DESIGN CHOICE (log entry 22): a directive that can
still act counts as able to change a register also where it finds the block just reset. -/
def Mach.programEnded {wT : Nat} (m : Mach wT) : Bool :=
  match m.script, m.program with
  | [], some p =>
    p.now != 0 && !p.rst m.block &&
      (((p.linesLeft m.block).isEmpty && m.block.idle) ||
        (m.block.fault && !m.block.outv && (p.linesLeft m.block).all (fun l => match l with
          | .resetAt _ => false
          | .offer _ => true
          | .reset => true)))
  | _, _ => false

/-- Offer the command word `w` in the coming step and have the block ready to accept it; the consumer's port is left as
it would have been (log entry 9). -/
def Mach.offerNext {wT : Nat} (w : CommandWord wT) (m : Mach wT) : Mach wT :=
  { m with
    block := { m.block with busy := false, fault := false }
    script :=
      { rst := false, inValid := true, inByte := commandByte w, inT := commandTime w, outReady := m.inputs.outReady } ::
        m.script.tail }

/-- Offer the command that these bits are, if they are one of this machine's (rule R66). -/
def State.placeWord (s : State) (nbits w : Nat) : State :=
  match decodeBits s.wT nbits w with
  | .ok _ => { wT := s.wT, mach := s.mach.offerNext (BitVec.ofNat (s.wT + 8) w) }
  | .error _ => s

end Sys2Proof.Machine
end

