-- ==== Sys2Proof/Machine/Cycle.lean ====
section
/-! DEFINITION. One step of the block (10_state.md rule R30). -/

namespace Sys2Proof.Machine

/-- The command word on the input ports (30_encoding.md: "the command word is `{in_t, in_byte}`"). -/
def Inputs.word {wT : Nat} (inp : Inputs wT) : CommandWord wT := commandWord inp.inByte inp.inT

/-- The command on the input channel in this step: offered, decoded and run (rules R63, R84). Where none is offered
nothing happens. -/
def Mach.takeCommand {wT : Nat} (inp : Inputs wT) (m : Mach wT) : Host.Outcome State Fault Refusal :=
  if inp.inValid then exec (decode inp.word) { wT := wT, mach := m } else .next { wT := wT, mach := m }

/-- The block's actions in step `n` (rule R30), the environment aside. Reset overrides everything (rule R136). `adv`
excludes the two other actions; a transfer and an acceptance write disjoint registers, so that doing one after the
other is doing both together (log entry 10). -/
def Mach.act {wT : Nat} (inp : Inputs wT) (n : Nat) (m : Mach wT) : Host.Outcome State Fault Refusal :=
  if inp.rst then .next { wT := wT, mach := m.resetStep n }
  else if m.block.adv then mapNext (fun r => { wT := wT, mach := { m with block := r } }) m.block.advance
  else (m.transferIf (m.block.xfer inp)).takeCommand inp

/-- One step: the ports are read, the environment moves on, and the block acts on what was read. -/
def cycle (s : State) : Host.Outcome State Fault Refusal := s.mach.moveOn.act s.mach.inputs s.mach.stepNo

end Sys2Proof.Machine
end

