-- ==== Sys2Proof/Machine/Step.lean ====
section
/-! DEFINITION. The step function, and how a command word is placed for the next step. -/

namespace Sys2Proof.Machine

/-- One step of the machine (10_state.md rule R30). -/
def step (s : State) : Host.Outcome State Fault Refusal := cycle s

/-- The state in which the next step accepts and runs this command word. The block fetches nothing (rule R50): a command
arrives on the input channel, so the word is put on the input ports of the next step, and the block is made ready to
accept it (log entry 9). What is no command word of the machine (rule R66) is not placed. -/
def State.withFetchWord (s : State) (nbits w : Nat) : State := s.placeWord nbits w

end Sys2Proof.Machine
end

