-- ==== Sys2Proof/Machine/Assembler.lean ====
section
/-! DEFINITION. The text of a source line read into `AsmLine` (30_encoding.md rules R67 to R69). The spec gives the
forms of the lines and the two ways to write a byte; spaces, comments and letter case are as log entry 13 says, and how
the other numbers are written as log entry 24 says. -/

namespace Sys2Proof.Machine

/-- A lexical unit of a source line. -/
inductive Token where
  | ident (name : List Char)
  | num (n : Nat)
  | str (text : List Char)
  | comma
  | lbrack
  | rbrack
  | atSign
deriving DecidableEq, Repr

/-- The value of a digit, decimal or hex. -/
def digitValue (c : Char) : Option Nat :=
  let n := c.toNat
  if 48 ≤ n ∧ n ≤ 57 then some (n - 48)
  else if 97 ≤ n ∧ n ≤ 102 then some (n - 87)
  else if 65 ≤ n ∧ n ≤ 70 then some (n - 55)
  else none

/-- Digits of a base read on from a value; every digit must be one of the base. -/
def readDigits (base : Nat) : Nat → List Char → Option Nat
  | acc, [] => some acc
  | acc, c :: cs =>
    match digitValue c with
    | some d => if d < base then readDigits base (acc * base + d) cs else none
    | none => none

/-- A number "written in decimal or as `0x..` hex": so rule R67 says of `<b>`. DESIGN CHOICE (log entry 24): `<t>`, `<w>`
and `<s>` are read both ways too. -/
def readNumber : List Char → Option Nat
  | '0' :: 'x' :: c :: cs => readDigits 16 0 (c :: cs)
  | c :: cs => readDigits 10 0 (c :: cs)
  | [] => none

/-- A letter, digit or dot: what names and numbers are made of. -/
def isWordChar (c : Char) : Bool :=
  let n := c.toNat
  (48 ≤ n && n ≤ 57) || (65 ≤ n && n ≤ 90) || (97 ≤ n && n ≤ 122) || n == 46

/-- The text up to the closing double quote, and what follows it. -/
def readText : List Char → Option (List Char × List Char)
  | [] => none
  | c :: cs =>
    if c.toNat = 34 then some ([], cs)
    else match readText cs with
      | some (text, rest) => some (c :: text, rest)
      | none => none

/-- A word of letters, digits and dots is a number if it begins with a digit, else a name. -/
def wordToken (w : List Char) : Option Token :=
  match w with
  | c :: _ => if 48 ≤ c.toNat ∧ c.toNat ≤ 57 then (readNumber w).map .num else some (.ident w)
  | [] => none

/-- A line's lexical units, up to a `;` comment. The first argument bounds their number. -/
def lexLine : Nat → List Char → Option (List Token)
  | 0, _ => none
  | _ + 1, [] => some []
  | k + 1, c :: cs =>
    if c.toNat = 32 ∨ c.toNat = 9 then lexLine k cs
    else if c = ';' then some []
    else if c = ',' then (lexLine k cs).map (.comma :: ·)
    else if c = '[' then (lexLine k cs).map (.lbrack :: ·)
    else if c = ']' then (lexLine k cs).map (.rbrack :: ·)
    else if c = '@' then (lexLine k cs).map (.atSign :: ·)
    else if c.toNat = 34 then
      match readText cs with
      | some (text, rest) => (lexLine k rest).map (.str text :: ·)
      | none => none
    else if isWordChar c then
      match wordToken (c :: cs.takeWhile isWordChar) with
      | some w => (lexLine k (cs.dropWhile isWordChar)).map (w :: ·)
      | none => none
    else none

/-- The numbers of a list after its first one, up to the closing bracket. -/
def parseMore : List Token → Option (List Nat × List Token)
  | .rbrack :: rest => some ([], rest)
  | .comma :: .num n :: rest => (parseMore rest).map (fun p => (n :: p.1, p.2))
  | _ => none

/-- A bracketed list of numbers, the opening bracket already read. An empty one is a form of its own: the assembler
refuses it later (rule R68). -/
def parseList : List Token → Option (List Nat × List Token)
  | .rbrack :: rest => some ([], rest)
  | .num n :: rest => (parseMore rest).map (fun p => (n :: p.1, p.2))
  | _ => none

/-- The forms of a source line (rules R67 to R69); a line with nothing on it is no line. -/
def parseTokens : List Token → Option (List AsmLine)
  | [] => some []
  | .ident name :: rest =>
    if name = "ENCODE".toList then
      match rest with
      | [.num b, .comma, .num t] => some [.encode b t]
      | _ => none
    else if name = "ENCODEBUF".toList then
      match rest with
      | .lbrack :: more =>
        match parseList more with
        | some (bs, [.comma, .num t]) => some [.encodeBuf bs t]
        | _ => none
      | _ => none
    else if name = "ENCODESTR".toList then
      match rest with
      | [.str text, .comma, .num t] => some [.encodeStr text t]
      | _ => none
    else if name = ".word".toList then
      match rest with
      | [.num w] => some [.word w]
      | _ => none
    else if name = "RESET".toList then
      match rest with
      | [] => some [.reset]
      | [.atSign, .num n] => some [.resetAt n]
      | _ => none
    else none
  | _ => none

/-- One line of text; `none` is the assembler's refusal. A comment is dropped, also one that tells the consumer policy,
which is no part of the text here: DESIGN CHOICE (log entry 25). -/
def parseLine (text : List Char) : Option (List AsmLine) :=
  match lexLine (text.length + 1) text with
  | some toks => parseTokens toks
  | none => none

/-- A source's lines of text. -/
def parseSource : List (List Char) → Option (List AsmLine)
  | [] => some []
  | l :: ls =>
    match parseLine l, parseSource ls with
    | some x, some xs => some (x ++ xs)
    | _, _ => none

end Sys2Proof.Machine
end

