-- ==== Sys2Proof/Machine/Reference.lean ====
section
/-! DEFINITION. The reference function `EncodeByte` and what the rules say about a sequence of delays (40_encode.md
rules R82, R83, R94 to R97; 41_output_stream.md rules R112 to R115). Delays are exact, unbounded numbers here; the
registers hold them in `W_D` bits (rule R92). -/

namespace Sys2Proof.Machine

/-- The scan of rule R82 over the bits still to come, at this level and with this accumulator. -/
def scan (t : Nat) : List Bool → Level → Nat → List Nat
  | [], _, acc => [acc]
  | v :: vs, level, acc => if v = level then scan t vs level (acc + t) else acc :: scan t vs (!level) t

/-- `EncodeByte(b, t)` (rule R82). For `t = 0` rule R82 gives no value: "no output" (rules R90, R100; log entry 14). -/
def encodeByte (b : Byte) (t : Nat) : List Nat :=
  if t = 0 then [] else scan t (scanOrder (frameWord b)) Config.startBit t

/-- The lengths of the maximal runs of equal bits (rule R83). -/
def runLengths (bits : List Bool) : List Nat := (bits.splitBy (· == ·)).map List.length

/-- `n(b) = 1 + (number of j in 1..9 with F[j] != F[j-1])` (rule R94). -/
def delayCount (b : Byte) : Nat :=
  1 + (List.range 9).countP (fun j => framePos (frameWord b) (j + 1) != framePos (frameWord b) j)

/-- The number of one bits. -/
def popcount {w : Nat} (x : BitVec w) : Nat := (List.range w).countP x.getLsbD

/-- The bits of a byte, least significant first. -/
def byteBits (b : Byte) : List Bool := (List.range Config.dataBits).map b.getLsbD

/-- `ctz(b)`: the zero bits below the lowest set bit (rule R96). -/
def lowZeros (b : Byte) : Nat := ((byteBits b).takeWhile (fun v => !v)).length

/-- `clo(b)`: the one bits above the highest clear bit (rule R97). -/
def highOnes (b : Byte) : Nat := ((byteBits b).reverse.takeWhile (fun v => v)).length

/-- The level held in each time unit of a delay sequence whose first delay has the level given: levels alternate
(rules R95, R115). -/
def waveform : Level → List Nat → List Level
  | _, [] => []
  | l, d :: ds => List.replicate d l ++ waveform (!l) ds

/-- The level held in each time unit while the frame of `b` is sent at bit time `t` (rule R81). -/
def frameWaveform (b : Byte) (t : Nat) : List Level := (frameBits b).flatMap (List.replicate t)

/-- The concatenation of the encodings of commands, in order (rule R113). -/
def encodeAll (cmds : List (Byte × Nat)) : List Nat := cmds.flatMap (fun c => encodeByte c.1 c.2)

end Sys2Proof.Machine
end

