-- ==== Sys2Proof/Machine/RegisterTransfer.lean ====
section
/-! DEFINITION. Rule R30 (10_state.md) register by register, for every width: each register's next value, all taken
from the values at the start of the step and written together. `step` is written action by action; this is the other
reading of the same rule, which a statement of Certificates/Slice0 compares it with. -/

namespace Sys2Proof.Machine

/-- Rule R85's guard. -/
def Block.sameDue {wT : Nat} (r : Block wT) : Bool := r.adv && decide (r.idx.toNat ≤ 8) && (r.scannedBit == r.level)

/-- Rule R86's guard. -/
def Block.changeDue {wT : Nat} (r : Block wT) : Bool := r.adv && decide (r.idx.toNat ≤ 8) && (r.scannedBit != r.level)

/-- Rule R87's guard. -/
def Block.pushDue {wT : Nat} (r : Block wT) : Bool := r.adv && (r.idx == 9#4)

/-- Rule R84 with `t != 0`. -/
def Block.startDue {wT : Nat} (r : Block wT) (inp : Inputs wT) : Bool := r.accepts inp && (inp.inT != 0#wT)

/-- Rule R84 with `t == 0`: rule R130. -/
def Block.badDue {wT : Nat} (r : Block wT) (inp : Inputs wT) : Bool := r.accepts inp && (inp.inT == 0#wT)

/-- The registers after a step with `rst == 0` (rule R30). No rule moves a register in an advance step with IDX from 10
to 15 (U10); `step` stops there. -/
def Block.moved {wT : Nat} (r : Block wT) (inp : Inputs wT) : Block wT where
  busy := if r.startDue inp then true else if r.pushDue then false else r.busy
  fault := if r.badDue inp then true else r.fault
  outv := if r.changeDue || r.pushDue then true else if r.xfer inp then false else r.outv
  outd := if r.changeDue || r.pushDue then r.acc else r.outd
  level := if r.startDue inp then false else if r.changeDue then !r.level else r.level
  acc :=
    if r.startDue inp then zextDelay inp.inT
    else if r.sameDue then r.acc + zextDelay r.t
    else if r.changeDue then zextDelay r.t
    else r.acc
  t := if r.startDue inp then inp.inT else r.t
  frame := if r.startDue inp then frameWord inp.inByte else r.frame
  idx := if r.startDue inp then 0#4 else if r.sameDue || r.changeDue then r.idx + 1#4 else r.idx

/-- The registers after step `n` (rules R30, R150). -/
def Block.registerTransfer {wT : Nat} (r : Block wT) (inp : Inputs wT) (n : Nat) : Block wT :=
  if inp.rst then Block.resetStep n else r.moved inp

/-- Is this the step that has no rule (U10)? -/
def Block.noRule {wT : Nat} (r : Block wT) (inp : Inputs wT) : Bool := !inp.rst && r.adv && decide (9 < r.idx.toNat)

/-- What the consumer receives in a step (rules R111, R150). -/
def Block.received {wT : Nat} (r : Block wT) (inp : Inputs wT) : List (Delay wT) :=
  if !inp.rst && r.xfer inp then [r.outd] else []

/-- The command accepted in a step with `t != 0`, as a list of at most one (rule R84). -/
def Block.started {wT : Nat} (r : Block wT) (inp : Inputs wT) : List (Byte × Nat) :=
  if !inp.rst && r.startDue inp then [(inp.inByte, inp.inT.toNat)] else []

/-- The bits of FRAME still to scan. -/
def Block.bitsLeft {wT : Nat} (r : Block wT) : List Bool := (scanOrder r.frame).drop r.idx.toNat

/-- The delays the frame operation in progress has still to emit: the scan of rule R82 taken up where the registers
stand (rule R98: "each advance step with IDX = i performs iteration i of the loop"). -/
def Block.toEmit {wT : Nat} (r : Block wT) : List Nat :=
  if r.busy then scan r.t.toNat r.bitsLeft r.level r.acc.toNat else []

/-- The delays of accepted commands that have not reached the consumer: the one in OUTD, then those still to emit. -/
def Block.owed {wT : Nat} (r : Block wT) : List Nat := (if r.outv then [r.outd.toNat] else []) ++ r.toEmit

/-- The registers after one step for each input sample, from step `n` on. -/
def Block.runRegs {wT : Nat} (n : Nat) (r : Block wT) : List (Inputs wT) → Block wT
  | [] => r
  | i :: is => Block.runRegs (n + 1) (r.registerTransfer i n) is

/-- What the consumer receives over those steps. -/
def Block.runReceived {wT : Nat} (n : Nat) (r : Block wT) : List (Inputs wT) → List (Delay wT)
  | [] => []
  | i :: is => r.received i ++ Block.runReceived (n + 1) (r.registerTransfer i n) is

/-- The commands accepted with `t != 0` over those steps. -/
def Block.runStarted {wT : Nat} (n : Nat) (r : Block wT) : List (Inputs wT) → List (Byte × Nat)
  | [] => []
  | i :: is => r.started i ++ Block.runStarted (n + 1) (r.registerTransfer i n) is

/-- How many of those steps accept a command, with `t != 0` or not (rule R84). -/
def Block.runAccepts {wT : Nat} (n : Nat) (r : Block wT) : List (Inputs wT) → Nat
  | [] => 0
  | i :: is => (if !i.rst && r.accepts i then 1 else 0) + Block.runAccepts (n + 1) (r.registerTransfer i n) is

/-- How many of those steps advance the scan (rules R85 to R87). -/
def Block.runAdvances {wT : Nat} (n : Nat) (r : Block wT) : List (Inputs wT) → Nat
  | [] => 0
  | i :: is => (if !i.rst && r.adv then 1 else 0) + Block.runAdvances (n + 1) (r.registerTransfer i n) is

end Sys2Proof.Machine
end

