-- ==== Sys2Proof/Safety.lean ====
section
/-! DEFINITION. The invariants of 10_state.md rule R29, what the output stream owes (rule R113), what a
run accepts and advances, the consumer's fairness (70_reset_and_hazards.md rule R160), and what counts as a safe run: one
without a fault (60_exceptions.md rules R132, R143). -/

namespace Sys2Proof.Machine

/-- The run in ACC covers the `k` frame positions that end at position IDX, all of LEVEL, and no more (rule R29: I3 and
I4, with the run maximal to the left, as rule R83 takes it). -/
structure Block.RunOf {wT : Nat} (r : Block wT) (k : Nat) : Prop where
  pos : 1 ≤ k
  le_nine : k ≤ 9
  fits : k ≤ r.idx.toNat + 1
  acc_eq : r.acc.toNat = k * r.t.toNat
  same : ∀ j, j ≤ r.idx.toNat → r.idx.toNat < j + k → framePos r.frame j = r.level
  maximal : k ≤ r.idx.toNat → framePos r.frame (r.idx.toNat - k) ≠ r.level

/-- The invariants I1 to I4 and I7 of rule R29, for every width. The bit FRAME[8] is the stop bit (rule R61). I5 is a
consequence, stated on its own; I6 is no condition on the registers. -/
structure Block.Inv {wT : Nat} (r : Block wT) : Prop where
  i1 : r.busy = true → r.fault = false
  i2_idx : r.busy = true → r.idx.toNat ≤ 9
  i2_t : r.busy = true → r.t ≠ 0#wT
  stop : r.busy = true → r.frame.getLsbD 8 = true
  i3_i4 : r.busy = true → ∃ k, r.RunOf k
  i7 : r.fault = true → r.busy = false

/-- The invariant of the machine: its width is one that rule R8 allows, and its block's invariants hold. -/
structure State.Inv (s : State) : Prop where
  width : Config.widthOk s.wT
  regs : s.mach.block.Inv

/-- The consumer's stream, followed by what the block still owes, is the concatenation of the encodings of `cmds`
(rule R113). -/
def State.Tracks (cmds : List (Byte × Nat)) (s : State) : Prop :=
  s.mach.stream.map BitVec.toNat ++ s.mach.block.owed = encodeAll cmds

/-- The commands accepted with `t != 0` in the next `k` steps, in order. -/
def State.acceptedIn : Nat → State → List (Byte × Nat)
  | 0, _ => []
  | k + 1, s =>
    s.mach.block.started s.mach.inputs ++
      match step s with
      | .next s' => State.acceptedIn k s'
      | .fault _ => []
      | .refused _ => []

/-- How many of the next `k` steps accept a command, with `t != 0` or not. -/
def State.acceptsIn : Nat → State → Nat
  | 0, _ => 0
  | k + 1, s =>
    (if !s.mach.inputs.rst && s.mach.block.accepts s.mach.inputs then 1 else 0) +
      match step s with
      | .next s' => State.acceptsIn k s'
      | .fault _ => 0
      | .refused _ => 0

/-- How many of the next `k` steps advance the scan (rules R85 to R87). -/
def State.advancesIn : Nat → State → Nat
  | 0, _ => 0
  | k + 1, s =>
    (if !s.mach.inputs.rst && s.mach.block.adv then 1 else 0) +
      match step s with
      | .next s' => State.advancesIn k s'
      | .fault _ => 0
      | .refused _ => 0

/-- Is `rst = 0` in each of the next `k` steps? -/
def State.resetFree : Nat → State → Bool
  | 0, _ => true
  | k + 1, s =>
    !s.mach.inputs.rst &&
      match step s with
      | .next s' => State.resetFree k s'
      | .fault _ => true
      | .refused _ => true

/-- The fairness assumption of 70_reset_and_hazards.md rule R160, of the run from `s`: "whenever `out_valid = 1`, the
consumer eventually sets `out_ready = 1`". It asks nothing of the steps in which `out_valid = 0`. -/
def State.FairConsumer (s : State) : Prop :=
  ∀ (k : Nat) (s' : State), core.run k s = .next s' → s'.mach.outputs.outValid = true →
    ∃ (j : Nat) (s'' : State), core.run j s' = .next s'' ∧ s''.mach.inputs.outReady = true

/-- The host keeps its duty in a step: it does not offer `t == 0` (rule R143). -/
def Inputs.keepsDuty {wT : Nat} (inp : Inputs wT) : Bool := !inp.inValid || inp.inT != 0#wT

/-- A safe step outcome: it answers next, and the block has not faulted (rule R132: "every claim about a run takes
FAULT = 0 throughout as a premise"). -/
def safeOutcome : Host.Outcome State Fault Refusal → Bool
  | .next s => !s.mach.block.fault
  | .fault _ => false
  | .refused _ => false

end Sys2Proof.Machine
end

