-- ==== Sys2Proof/Certificates/Slice0/Obligations.lean ====
section
/-! DEFINITION. The statements about the model, one per obligation of OBLIGATIONS.json. Rules are those of spec/. Where
a statement takes a width `wT`, it holds at every width; `⟨wT, m⟩` is the state of a machine of that width. -/

open Sys2Proof Sys2Proof.Machine

/-! ## Command words (30_encoding.md) -/

/-- The decoder vectors of 95_test_vectors.md section 2.3, each word written `t` above `b`. -/
def Obligations.DecoderVectorsRead : Prop :=
  decodeTableWord 24 0b0000000001100100_01000001 = some (.encode 0x41 100) ∧
  decodeTableWord 24 0b0000000000000000_00010010 = some (.illegal 0x12) ∧
  decodeTableWord 24 0b0000000000000000_11111111 = some (.illegal 0xFF) ∧
  decodeTableWord 24 0b0000000000000001_00000000 = some (.encode 0x00 1) ∧
  decodeTableWord 24 0b0000000100000000_00000000 = some (.encode 0x00 256) ∧
  decodeTableWord 24 0b1111111111111111_11111111 = some (.encode 0xFF 65535)

/-- R63: a word whose bits above bit 7 are zero is ILLEGAL, every other one is ENCODE; `b` is the word modulo 256 and
`t` the word divided by 256. The decoder of bit strings answers the same, and at `W_T = 16` so does that of the opcode
table. -/
def Obligations.DecoderSplitsOnBitTime : Prop :=
  (∀ (wT : Nat) (w : CommandWord wT),
    (w.toNat / 256 = 0 → decode w = .illegal (BitVec.ofNat 8 w.toNat)) ∧
    (w.toNat / 256 ≠ 0 → decode w = .encode (BitVec.ofNat 8 (w.toNat % 256)) (w.toNat / 256)) ∧
    decodeBits wT (wT + 8) w.toNat = .ok (decode w)) ∧
  ∀ w : CommandWord 16, decodeTableWord 24 w.toNat = some (decode w)

/-- Decoding the encoding of a well-formed instruction gives it back, with every operand at every value, at every width
(R60, R63). -/
def Obligations.DecodeOfEncodeIsSame : Prop :=
  (∀ (wT : Nat) (i : Instr), i.wf wT = true →
    decode (encode wT i) = i ∧ decodeBits wT (wT + 8) (encode wT i).toNat = .ok i) ∧
  ∀ i : Instr, i.wf 16 = true → decodeTableWord 24 (encode 16 i).toNat = some i

/-- Every command word decodes to a well-formed instruction whose encoding it is (R63, R65: the decoder is total and no
encoding is reserved). -/
def Obligations.EncodeOfDecodeIsSame : Prop :=
  ∀ (wT : Nat) (w : CommandWord wT), (decode w).wf wT = true ∧ encode wT (decode w) = w

/-- R66: a string of bits is a command of the machine exactly if it has `W_T + 8` bits, whatever they are; one of any
other length is rejected by name, and placing it (log entry 9) changes nothing. -/
def Obligations.CommandsHaveOneLength : Prop :=
  ∀ wT nbits w : Nat,
    ((∃ i, decodeBits wT nbits w = .ok i) ↔ nbits = wT + 8 ∧ w < 2 ^ nbits) ∧
    (nbits ≠ wT + 8 → decodeBits wT nbits w = .error .wrongLength ∧
      ∀ m : Mach wT, State.withFetchWord ⟨wT, m⟩ nbits w = ⟨wT, m⟩)

/-- R64: the illegal encodings are exactly the 256 words below 256, one for each byte, and acceptance of one is a
fault. -/
def Obligations.IllegalWordsAreOnePerByte : Prop :=
  ∀ (wT : Nat) (w : CommandWord wT) (b : Byte),
    (decode w = .illegal b ↔ w.toNat = b.toNat) ∧
    ∀ m : Mach wT, m.block.busy = false → m.block.fault = false → w.toNat = b.toNat →
      exec (decode w) ⟨wT, m⟩ = .next ⟨wT, { m with block := { m.block with fault := true } }⟩

/-! ## The commands' meanings -/

/-- ENCODE completes its acceptance in every state in which the block is ready, for every bit time of the width other
than 0: all nine registers after it (R84; the values of T, ACC and FRAME as numbers), and everything outside the block
as before. -/
def Obligations.EncodeStartsFrameOperation : Prop :=
  ∀ (wT : Nat) (b : Byte) (t : Nat) (m : Mach wT), m.block.busy = false → m.block.fault = false →
    0 < t → t < 2 ^ wT →
    exec (.encode b t) ⟨wT, m⟩ =
      .next ⟨wT, { m with
        block :=
          { busy := true, fault := false, outv := m.block.outv, outd := m.block.outd, level := false,
            acc := BitVec.ofNat (wT + 4) t, t := BitVec.ofNat wT t, frame := BitVec.ofNat 9 (256 + b.toNat),
            idx := 0#4 } }⟩

/-- ILLEGAL, and ENCODE with `t = 0`, complete by raising BadBitTime in every state in which the block is ready: FAULT
is set and nothing else changes (R130). -/
def Obligations.IllegalRaisesBadBitTime : Prop :=
  ∀ (wT : Nat) (b : Byte) (m : Mach wT), m.block.busy = false → m.block.fault = false →
    exec (.illegal b) ⟨wT, m⟩ = .next ⟨wT, { m with block := { m.block with fault := true } }⟩ ∧
    exec (.encode b 0) ⟨wT, m⟩ = .next ⟨wT, { m with block := { m.block with fault := true } }⟩

/-- An ENCODE term whose bit time is in no command word of the machine (R62) is refused and never truncated (R67, U11),
and no command word decodes to one (the model's choice of a term's type: log entry 21). -/
def Obligations.TooWideBitTimeIsRefused : Prop :=
  ∀ wT : Nat,
    (∀ (b : Byte) (t : Nat) (m : Mach wT), 2 ^ wT ≤ t → exec (.encode b t) ⟨wT, m⟩ = .refused .operandOutOfRange) ∧
    (∀ (w : CommandWord wT) (m : Mach wT), ∃ m', exec (decode w) ⟨wT, m⟩ = .next ⟨wT, m'⟩)

/-- A command offered while BUSY = 1 or FAULT = 1 is not accepted and changes nothing (R22, R132). -/
def Obligations.CommandWaitsUnlessReady : Prop :=
  ∀ (i : Instr) (s : State), i.fits s.wT = true → (s.mach.block.busy = true ∨ s.mach.block.fault = true) →
    exec i s = .next s

/-- Frame of both commands: `exec` answers next, and leaves the width, the output register, the consumer's streams and
the environment as they were; an ILLEGAL leaves the hidden registers as well (R30, R84, R89, R130). -/
def Obligations.CommandsLeaveOutputAlone : Prop :=
  ∀ (i : Instr) (wT : Nat) (m : Mach wT), i.fits wT = true →
    ∃ m', exec i ⟨wT, m⟩ = .next ⟨wT, m'⟩ ∧
      m'.block.outv = m.block.outv ∧ m'.block.outd = m.block.outd ∧ m'.stream = m.stream ∧ m'.segments = m.segments ∧
      m'.script = m.script ∧ m'.program = m.program ∧ m'.stepNo = m.stepNo ∧
      (∀ b, i = .illegal b →
        m'.block.busy = m.block.busy ∧ m'.block.level = m.block.level ∧ m'.block.acc = m.block.acc ∧
        m'.block.t = m.block.t ∧ m'.block.frame = m.block.frame ∧ m'.block.idx = m.block.idx) ∧
      (∀ b t, i = .encode b t → t ≠ 0 → m'.block.fault = m.block.fault)

/-- The spec's inference in R34: each acceptance overwrites the five hidden registers, so that nothing of an earlier
frame is left: two blocks that agree on the output register accept a command into the same registers. -/
def Obligations.EarlierFramesLeaveNoTrace : Prop :=
  ∀ (wT : Nat) (b : Byte) (t : Nat) (m₁ m₂ : Mach wT), 0 < t → t < 2 ^ wT →
    m₁.block.busy = false → m₁.block.fault = false → m₂.block.busy = false → m₂.block.fault = false →
    m₁.block.outv = m₂.block.outv → m₁.block.outd = m₂.block.outd →
    ∃ m₁' m₂', exec (.encode b t) ⟨wT, m₁⟩ = .next ⟨wT, m₁'⟩ ∧ exec (.encode b t) ⟨wT, m₂⟩ = .next ⟨wT, m₂'⟩ ∧
      m₁'.block = m₂'.block

/-! ## One step (10_state.md rule R30) -/

/-- A step in which a ready block is offered a command runs the decoded command, once the environment has moved on and
the step's transfer, if there is one, is done (R30, R63, R84). -/
def Obligations.StepRunsOfferedCommand : Prop :=
  ∀ (wT : Nat) (m : Mach wT) (i : Instr), m.inputs.rst = false → m.inputs.inValid = true →
    m.block.busy = false → m.block.fault = false →
    decodeBits wT (wT + 8) (m.inputs.inT.toNat * 256 + m.inputs.inByte.toNat) = .ok i →
    step ⟨wT, m⟩ = exec i ⟨wT, m.moveOn.transferIf (m.block.outv && m.inputs.outReady)⟩

/-- What every step does beside the block's actions: the width stays (R8), the first port sample is used up, or else the
program moves on, and the step is counted (log entries 1, 5, 15 and 20). -/
def Obligations.StepMovesEnvironmentOn : Prop :=
  ∀ (wT : Nat) (m : Mach wT) (s' : State), step ⟨wT, m⟩ = .next s' →
    ∃ m' : Mach wT, s' = ⟨wT, m'⟩ ∧ m'.script = m.script.tail ∧
      (m.script = [] → m'.program = m.program.map (fun p => p.afterStep m.block)) ∧
      (m.script ≠ [] → m'.program = m.program) ∧ m'.stepNo = m.stepNo + 1

/-- The word that `withFetchWord` places is what the next step runs, from every state (the model's way to present a
command: log entry 9). -/
def Obligations.PlacedWordRunsNext : Prop :=
  ∀ (wT : Nat) (m : Mach wT) (w : Nat), w < 2 ^ (wT + 8) →
    ∃ i, decodeBits wT (wT + 8) w = .ok i ∧ encode wT i = BitVec.ofNat (wT + 8) w ∧
      step (State.withFetchWord ⟨wT, m⟩ (wT + 8) w) =
        exec i ⟨wT, (m.offerNext (BitVec.ofNat (wT + 8) w)).moveOn.transferIf (m.block.outv && m.inputs.outReady)⟩

/-- R84, the accepting step: T, FRAME, LEVEL, ACC, IDX and BUSY are written from the ports, or FAULT alone where
`t == 0`; OUTD is kept, and OUTV and the stream change by the step's transfer only. -/
def Obligations.AcceptingStepLatchesCommand : Prop :=
  ∀ (wT : Nat) (m : Mach wT), m.inputs.rst = false → m.inputs.inValid = true →
    m.block.busy = false → m.block.fault = false →
    ∃ m', step ⟨wT, m⟩ = .next ⟨wT, m'⟩ ∧
      m'.block.outv = (m.block.outv && !m.inputs.outReady) ∧ m'.block.outd = m.block.outd ∧
      m'.stream = m.stream ++ (if m.block.outv && m.inputs.outReady then [m.block.outd] else []) ∧
      m'.segments = m.segments ∧
      (m.inputs.inT = 0#_ →
        m'.block.fault = true ∧ m'.block.busy = false ∧ m'.block.t = m.block.t ∧ m'.block.frame = m.block.frame ∧
        m'.block.level = m.block.level ∧ m'.block.acc = m.block.acc ∧ m'.block.idx = m.block.idx) ∧
      (m.inputs.inT ≠ 0#_ →
        m'.block.fault = false ∧ m'.block.busy = true ∧ m'.block.t = m.inputs.inT ∧
        m'.block.frame.toNat = 256 + m.inputs.inByte.toNat ∧ m'.block.level = false ∧
        m'.block.acc.toNat = m.inputs.inT.toNat ∧ m'.block.idx = 0#4)

/-- R136: reset overrides everything (what the reset step then leaves is log entries 3 and 8); a BadBitTime acceptance
and a transfer in one step both take effect. -/
def Obligations.FaultAndTransferTogether : Prop :=
  ∀ (wT : Nat) (m : Mach wT),
    (m.inputs.rst = true → step ⟨wT, m⟩ = .next ⟨wT, m.moveOn.resetStep m.stepNo⟩) ∧
    (m.inputs.rst = false → m.inputs.inValid = true → m.inputs.inT = 0#_ → m.inputs.outReady = true →
      m.block.busy = false → m.block.fault = false → m.block.outv = true →
      ∃ m', step ⟨wT, m⟩ = .next ⟨wT, m'⟩ ∧ m'.block = { m.block with fault := true, outv := false } ∧
        m'.stream = m.stream ++ [m.block.outd])

/-- R85: an advance step whose bit continues the run extends the accumulator by one bit time and moves on one bit; no
flag changes and nothing is emitted. -/
def Obligations.SameLevelStepExtendsRun : Prop :=
  ∀ (wT : Nat) (m : Mach wT), m.inputs.rst = false →
    m.block.busy = true → m.block.fault = false → m.block.outv = false →
    m.block.idx.toNat ≤ 8 → m.block.frame.getLsbD m.block.idx.toNat = m.block.level →
    ∃ m', step ⟨wT, m⟩ = .next ⟨wT, m'⟩ ∧ m'.stream = m.stream ∧ m'.segments = m.segments ∧
      m'.block = { m.block with acc := m.block.acc + m.block.t.setWidth (wT + 4), idx := m'.block.idx } ∧
      m'.block.idx.toNat = m.block.idx.toNat + 1

/-- R86: an advance step whose bit changes the level emits the accumulator, flips the level, resets the accumulator to
one bit time and moves on one bit. -/
def Obligations.LevelChangeStepEmitsRun : Prop :=
  ∀ (wT : Nat) (m : Mach wT), m.inputs.rst = false →
    m.block.busy = true → m.block.fault = false → m.block.outv = false →
    m.block.idx.toNat ≤ 8 → m.block.frame.getLsbD m.block.idx.toNat ≠ m.block.level →
    ∃ m', step ⟨wT, m⟩ = .next ⟨wT, m'⟩ ∧ m'.stream = m.stream ∧ m'.segments = m.segments ∧
      m'.block =
        { m.block with
          outv := true, outd := m.block.acc, level := !m.block.level, acc := m.block.t.setWidth (wT + 4),
          idx := m'.block.idx } ∧
      m'.block.idx.toNat = m.block.idx.toNat + 1

/-- R87: the final push emits the accumulator, clears BUSY and leaves LEVEL, ACC, T, FRAME and IDX as they are. -/
def Obligations.FinalPushEndsFrameOperation : Prop :=
  ∀ (wT : Nat) (m : Mach wT), m.inputs.rst = false →
    m.block.busy = true → m.block.fault = false → m.block.outv = false → m.block.idx = 9#4 →
    ∃ m', step ⟨wT, m⟩ = .next ⟨wT, m'⟩ ∧ m'.stream = m.stream ∧ m'.segments = m.segments ∧
      m'.block = { m.block with busy := false, outv := true, outd := m.block.acc }

/-- The inference that R87 marks as its own ("LEVEL is always 1 here", derived from R81 and I4 of R29): where the
invariants hold and the final push is due, LEVEL is 1. -/
def Obligations.FinalPushHasStopLevel : Prop :=
  ∀ (wT : Nat) (m : Mach wT), State.Inv ⟨wT, m⟩ → m.block.busy = true → m.block.idx = 9#4 → m.block.level = true

/-- R88: while BUSY = 1 and OUTV = 1 the scan does not advance: only the output register can be emptied. It resumes in
the first step that starts with OUTV = 0: IDX moves on by one, or BUSY falls. -/
def Obligations.ScanHoldsWhileOutputFull : Prop :=
  (∀ (wT : Nat) (m : Mach wT), m.inputs.rst = false → m.block.busy = true → m.block.outv = true →
    ∃ m', step ⟨wT, m⟩ = .next ⟨wT, m'⟩ ∧ m'.block = { m.block with outv := !m.inputs.outReady }) ∧
  (∀ (wT : Nat) (m : Mach wT), State.Inv ⟨wT, m⟩ → m.inputs.rst = false →
    m.block.busy = true → m.block.outv = false →
    ∃ m', step ⟨wT, m⟩ = .next ⟨wT, m'⟩ ∧
      (m'.block.idx.toNat = m.block.idx.toNat + 1 ∧ m'.block.busy = true ∨
        m.block.idx = 9#4 ∧ m'.block.busy = false))

/-- R111: in a step with OUTV = 1 and no reset, a ready consumer receives OUTD and OUTV is cleared; one that is not
ready receives nothing and OUTD and OUTV are kept. A fault changes neither (R118). -/
def Obligations.TransferDeliversOfferedDelay : Prop :=
  ∀ (wT : Nat) (m : Mach wT), m.inputs.rst = false → m.block.outv = true →
    ∃ m', step ⟨wT, m⟩ = .next ⟨wT, m'⟩ ∧ m'.block.outd = m.block.outd ∧ m'.segments = m.segments ∧
      (m.inputs.outReady = true → m'.block.outv = false ∧ m'.stream = m.stream ++ [m.block.outd]) ∧
      (m.inputs.outReady = false → m'.block.outv = true ∧ m'.stream = m.stream)

/-- R110: Emit loads OUTD and sets OUTV, and no step loads OUTD while OUTV is set, so that no delay is overwritten. -/
def Obligations.EmitNeverOverwritesDelay : Prop :=
  ∀ wT : Nat,
    (∀ (d : Delay wT) (r : Block wT), r.emit d = { r with outd := d, outv := true }) ∧
    (∀ m m' : Mach wT, m.inputs.rst = false → step ⟨wT, m⟩ = .next ⟨wT, m'⟩ → m'.block.outd ≠ m.block.outd →
      m.block.outv = false) ∧
    (∀ m m' : Mach wT, step ⟨wT, m⟩ = .next ⟨wT, m'⟩ → m.block.outv = false → m'.block.outv = true →
      m'.block.outd = m.block.acc)

/-- R151: a reset abandons the frame operation in progress and drops a delay held in OUTD; what was transferred stays
with the consumer, and its stream starts again empty. The three flags of R150 are 0 after it, in every state. That what
stays with the consumer is appended to a list of earlier segments is the model's choice: log entry 8. -/
def Obligations.ResetAbandonsFrame : Prop :=
  ∀ (wT : Nat) (m : Mach wT), m.inputs.rst = true →
    ∃ m', step ⟨wT, m⟩ = .next ⟨wT, m'⟩ ∧ m'.block.busy = false ∧ m'.block.fault = false ∧ m'.block.outv = false ∧
      m'.stream = [] ∧ m'.segments = m.segments ++ [m.stream] ∧ m'.block.toEmit = [] ∧ m'.block.owed = []

/-- R131: FAULT is sticky and only a reset clears it; while it is set no step without a reset changes a register other
than OUTV, and `in_ready` is 0 (R132). -/
def Obligations.FaultStaysUntilReset : Prop :=
  ∀ (wT : Nat) (m : Mach wT), m.block.fault = true →
    (m.inputs.rst = false →
      ∃ m', step ⟨wT, m⟩ = .next ⟨wT, m'⟩ ∧
        m'.block = { m.block with outv := m.block.outv && !m.inputs.outReady } ∧
        m'.block.fault = true ∧ m'.outputs.inReady = false) ∧
    (m.inputs.rst = true → ∃ m', step ⟨wT, m⟩ = .next ⟨wT, m'⟩ ∧ m'.block.fault = false)

/-- A step stops exactly in an advance step with IDX from 10 to 15 (93_implementation_defined.md U10; log entry 7), with
that fault, and no step is refused. -/
def Obligations.StepStopsOnlyOutsideIndexRange : Prop :=
  ∀ (wT : Nat) (m : Mach wT),
    ((∃ f, step ⟨wT, m⟩ = .fault f) ↔
      m.inputs.rst = false ∧ m.block.busy = true ∧ m.block.fault = false ∧ m.block.outv = false ∧
        10 ≤ m.block.idx.toNat) ∧
    (∀ f, step ⟨wT, m⟩ = .fault f → f = .indexOutOfRange) ∧
    (∀ x, step ⟨wT, m⟩ ≠ .refused x)

/-- R22: `in_ready = (BUSY == 0) and (FAULT == 0)`, and a command is accepted (BUSY or FAULT rises) exactly when
`in_valid` and `in_ready` are 1 and `rst` is 0. -/
def Obligations.AcceptedExactlyWhenReady : Prop :=
  ∀ (wT : Nat) (m m' : Mach wT), step ⟨wT, m⟩ = .next ⟨wT, m'⟩ →
    (m.outputs.inReady = true ↔ m.block.busy = false ∧ m.block.fault = false) ∧
    ((m.block.busy = false ∧ m'.block.busy = true ∨ m.block.fault = false ∧ m'.block.fault = true) ↔
      m.inputs.inValid = true ∧ m.outputs.inReady = true ∧ m.inputs.rst = false)

/-- R24 and R23: the ports show the registers at the start of the step; `out_delay` is OUTD while `out_valid = 1`, and
nothing is said of it otherwise. -/
def Obligations.PortsShowRegisters : Prop :=
  ∀ (wT : Nat) (m : Mach wT),
    m.outputs.busy = m.block.busy ∧ m.outputs.fault = m.block.fault ∧ m.outputs.outValid = m.block.outv ∧
      (m.outputs.outValid = true → m.outputs.outDelay = m.block.outd)

/-- The spec's inference in R99: after the accepting step the ports `in_valid`, `in_byte` and `in_t` have no effect on a
step. -/
def Obligations.OperandsAreLatched : Prop :=
  ∀ (wT : Nat) (m : Mach wT) (i j : Inputs wT) (rest : List (Inputs wT)), m.block.busy = true →
    i.rst = j.rst → i.outReady = j.outReady →
    step ⟨wT, { m with script := i :: rest }⟩ = step ⟨wT, { m with script := j :: rest }⟩

/-- R30: `step`, written action by action, is the simultaneous register transfer: every register's next value is taken
from the values at the start of the step. `adv` excludes the two other guards, and where no guard holds no register
changes. Three of its clauses are the model's choices and not R30's: the free values that the register transfer gives
six registers in a reset step (log entry 3), the list of earlier segments (log entry 8) and the step counter (log entry
15). -/
def Obligations.StepIsSimultaneousTransfer : Prop :=
  ∀ (wT : Nat) (m : Mach wT),
    (m.block.adv = true → m.block.xfer m.inputs = false ∧ m.block.accepts m.inputs = false) ∧
    (m.inputs.rst = false → m.block.adv = false → m.block.xfer m.inputs = false → m.block.accepts m.inputs = false →
      ∃ m', step ⟨wT, m⟩ = .next ⟨wT, m'⟩ ∧ m'.block = m.block) ∧
    (m.block.noRule m.inputs = false →
      ∃ m', step ⟨wT, m⟩ = .next ⟨wT, m'⟩ ∧ m'.block = m.block.registerTransfer m.inputs m.stepNo ∧
        m'.stream = (if m.inputs.rst then [] else m.stream ++ m.block.received m.inputs) ∧
        m'.segments = m.segments ++ (if m.inputs.rst then [m.stream] else []) ∧ m'.stepNo = m.stepNo + 1)

/-! ## Invariants (10_state.md rule R29) -/

/-- At every width that R8 allows, the invariants hold at reset and after any reset step (R29, R31). -/
def Obligations.InvHoldsAfterReset : Prop :=
  State.reset.Inv ∧ (∀ wT : Nat, Config.widthOk wT → (State.resetAt wT).Inv) ∧
    ∀ s s' : State, Config.widthOk s.wT → s.mach.inputs.rst = true → step s = .next s' → s'.Inv

/-- Every step keeps the invariants I1 to I4 and I7 that the spec infers in R29, from every state that meets them, and
the width within R8's bound. -/
def Obligations.StepKeepsInv : Prop :=
  ∀ s s' : State, s.Inv → step s = .next s' → s'.Inv

/-- The invariants are kept at every width of the bit time (R8, R29), under every input. -/
def Obligations.InvKeptAtEveryWidth : Prop :=
  ∀ (wT : Nat) (r : Block wT) (inp : Inputs wT) (n : Nat),
    r.Inv → (r.registerTransfer inp n).Inv ∧ r.noRule inp = false

/-- A safe block whose host keeps its duty (R143) stays safe: the step answers next and FAULT stays 0. -/
def Obligations.DutifulHostNeverFaults : Prop :=
  ∀ s : State, s.Inv → s.mach.block.fault = false → s.mach.inputs.keepsDuty = true → safeOutcome (step s) = true

/-- The spec's inference in R92: no addition on ACC wraps, at any width: ACC is at most `9 * T`, and extending it adds
exactly `T`. -/
def Obligations.AccumulatorNeverWraps : Prop :=
  ∀ (wT : Nat) (r : Block wT), r.Inv → r.busy = true →
    r.acc.toNat ≤ 9 * r.t.toNat ∧ 9 * r.t.toNat ≤ 9 * (2 ^ wT - 1) ∧ 9 * (2 ^ wT - 1) < 2 ^ (wT + 4) ∧
    r.scanSame.acc.toNat = r.acc.toNat + r.t.toNat

/-- The spec's inference I5 of R29: of the encoding of the frame's byte, what has been emitted and the accumulator
together last IDX + 1 bit times; what is still to come is the scan taken up where the registers stand. -/
def Obligations.EmittedPlusAccumulated : Prop :=
  ∀ (wT : Nat) (r : Block wT), r.Inv → r.busy = true →
    ∃ emitted, encodeByte (r.frame.setWidth 8) r.t.toNat = emitted ++ r.toEmit ∧
      emitted.sum + r.acc.toNat = (r.idx.toNat + 1) * r.t.toNat

/-! ## The reference function (40_encode.md) -/

/-- R93: the delays of a byte sum to ten bit times. -/
def Obligations.EncodingSumsToTenBitTimes : Prop :=
  ∀ (b : Byte) (t : Nat), 1 ≤ t → (encodeByte b t).sum = 10 * t

/-- The spec's inference in R83: the delays are the lengths of the frame's maximal runs, times the bit time. -/
def Obligations.EncodingIsRunLengths : Prop :=
  ∀ (b : Byte) (t : Nat), 1 ≤ t → encodeByte b t = (runLengths (frameBits b)).map (· * t)

/-- The spec's inference in R91: every delay is `k * t` with `1 <= k <= 9`. -/
def Obligations.DelaysAreOneToNineBitTimes : Prop :=
  ∀ (b : Byte) (t d : Nat), 1 ≤ t → d ∈ encodeByte b t → ∃ k, 1 ≤ k ∧ k ≤ 9 ∧ d = k * t

/-- The spec's inference in R94: the number of delays, its closed form, its five values, and how many bytes have
each. -/
def Obligations.DelayCountsAreExact : Prop :=
  ∀ t : Nat, 1 ≤ t →
    (∀ b : Byte, (encodeByte b t).length = delayCount b ∧
      delayCount b = 1 + popcount ((frameWord b ^^^ (frameWord b <<< 1)) &&& (0x1FF : FrameWord)) ∧
      delayCount b ∈ [2, 4, 6, 8, 10]) ∧
    [2, 4, 6, 8, 10].map
      (fun n => ((List.range 256).map (BitVec.ofNat 8)).countP (fun b => (encodeByte b t).length == n)) =
        [9, 84, 126, 36, 1]

/-- The spec's inference in R96: the first delay's multiple. -/
def Obligations.FirstDelayCountsLowZeros : Prop :=
  ∀ (b : Byte) (t : Nat), 1 ≤ t →
    (encodeByte b t).head? = some ((if b = 0x00 then 9 else 1 + lowZeros b) * t)

/-- The spec's inference in R97: the last delay's multiple. -/
def Obligations.LastDelayCountsHighOnes : Prop :=
  ∀ (b : Byte) (t : Nat), 1 ≤ t →
    (encodeByte b t).getLast? = some ((if b = 0xFF then 9 else 1 + highOnes b) * t)

/-- The spec's inference in R95: the delays, held at alternating levels from level 0 on, are the frame sent at bit time
`t`; their number is even, so that the last one has level 1. -/
def Obligations.DelaysAlternateLevels : Prop :=
  ∀ (b : Byte) (t : Nat), 1 ≤ t →
    waveform false (encodeByte b t) = frameWaveform b t ∧ (encodeByte b t).length % 2 = 0

/-- The spec's inference in R115 (level reconstruction) with R113: the delays of any commands one after another, held at
alternating levels from level 0 on, are their frames one after another. A command with `t = 0`, which R113 leaves out,
counts as no delays and no time: log entry 14, the model's reading. -/
def Obligations.LevelsCarryAcrossBytes : Prop :=
  ∀ cmds : List (Byte × Nat),
    waveform false (encodeAll cmds) = cmds.flatMap (fun c => frameWaveform c.1 c.2)

/-! ## The output stream (41_output_stream.md) -/

/-- One step of the spec's inferences in R98, R112 and R113, at every width and under every input without a reset: what
the consumer receives in the step, followed by what the block owes after it, is what the block owed before, followed by
the encoding of the command accepted in the step. -/
def Obligations.StepDeliversWhatIsOwed : Prop :=
  ∀ (wT : Nat) (r : Block wT) (inp : Inputs wT) (n : Nat), r.Inv → inp.rst = false →
    (r.received inp).map BitVec.toNat ++ (r.registerTransfer inp n).owed = r.owed ++ encodeAll (r.started inp)

/-- The same of `step`: what the stream tracks grows by the command accepted in the step (R112, R113). -/
def Obligations.StepKeepsStreamTracked : Prop :=
  ∀ (cmds : List (Byte × Nat)) (s s' : State), s.Inv → s.Tracks cmds → s.mach.inputs.rst = false →
    step s = .next s' → s'.Tracks (cmds ++ s.mach.block.started s.mach.inputs)

/-- The spec's inferences in R113 and R119: after any number of steps without a reset from an idle block with an empty
stream, under any host and consumer, the stream and what is owed are the concatenation of the encodings of the accepted
commands; once the block is idle the stream alone is. -/
def Obligations.StreamIsConcatenation : Prop :=
  ∀ (k : Nat) (s s' : State), s.mach.block.idle = true → s.mach.stream = [] → s.resetFree k = true →
    core.run k s = .next s' →
    s'.Tracks (s.acceptedIn k) ∧
      (s'.mach.block.idle = true → s'.mach.stream.map BitVec.toNat = encodeAll (s.acceptedIn k))

/-- The spec's inference in R114: the totals of the bytes survive concatenation. -/
def Obligations.StreamTotalsArePerByte : Prop :=
  ∀ (k : Nat) (s s' : State), s.mach.block.idle = true → s.mach.stream = [] → s.resetFree k = true →
    core.run k s = .next s' → s'.mach.block.idle = true →
    (s'.mach.stream.map BitVec.toNat).sum = 10 * ((s.acceptedIn k).map (fun c => c.2)).sum ∧
      ∀ c ∈ s.acceptedIn k, (encodeByte c.1 c.2).sum = 10 * c.2

/-- The spec's inferences in R98 and R160, at every width, under every schedule without a reset in which the consumer is
ready often enough: a command accepted with `t != 0` is emitted and received as `EncodeByte(b, t)`, after the delay that
was still offered, whatever the host offers meanwhile. If no other command is accepted, nothing more is received,
exactly 10 steps advance the scan, and the block is idle again. -/
def Obligations.FrameOperationRunsToEnd : Prop :=
  ∀ (wT n : Nat) (r : Block wT) (first : Inputs wT) (rest : List (Inputs wT)),
    r.busy = false → r.fault = false → first.rst = false → first.inValid = true → first.inT ≠ 0#_ →
    (∀ i ∈ rest, i.rst = false) →
    10 + delayCount first.inByte + (if r.outv then 1 else 0) ≤ rest.countP (fun i => i.outReady) →
    ∃ more,
      (Block.runReceived n r (first :: rest)).map BitVec.toNat =
        (if r.outv then [r.outd.toNat] else []) ++ encodeByte first.inByte first.inT.toNat ++ more ∧
      (Block.runAccepts n r (first :: rest) = 1 →
        more = [] ∧ Block.runAdvances n r (first :: rest) = 10 ∧ (Block.runRegs n r (first :: rest)).idle = true)

/-- The step count of R102 (which the spec calls not normative), at every width: from an idle block, with a consumer
that is always ready and no further command, the frame operation is over exactly from `11 + n(b)` steps on. -/
def Obligations.IsolatedFrameStepCount : Prop :=
  ∀ (wT n : Nat) (r : Block wT) (first : Inputs wT) (rest : List (Inputs wT)),
    r.idle = true → r.fault = false → first.rst = false → first.inValid = true → first.inT ≠ 0#_ →
    (∀ i ∈ rest, i.rst = false ∧ i.inValid = false ∧ i.outReady = true) →
    ((Block.runRegs n r (first :: rest)).idle = true ↔
      11 + delayCount first.inByte ≤ (first :: rest).length)

/-- ENCODE carried through to its whole effect (R80) by the machine's steps, whatever the host offers meanwhile: the
block appends `EncodeByte(b, t)` to the stream, in order. If no other command is accepted, nothing follows it and the
block is idle again. That it ends at all under a consumer that is ready often enough is the spec's inference in R160, which
FairConsumerEndsFrame states in R160's own words. -/
def Obligations.EncodeAppendsItsDelays : Prop :=
  ∀ (wT : Nat) (m : Mach wT) (first : Inputs wT) (rest : List (Inputs wT)),
    m.script = first :: rest → m.block.busy = false → m.block.fault = false →
    first.rst = false → first.inValid = true → first.inT ≠ 0#_ →
    (∀ i ∈ rest, i.rst = false) →
    10 + delayCount first.inByte + (if m.block.outv then 1 else 0) ≤ rest.countP (fun i => i.outReady) →
    ∃ (m' : Mach wT) (more : List Nat),
      core.run (rest.length + 1) (State.mk wT m) = .next (State.mk wT m') ∧ m'.segments = m.segments ∧
      m'.stream.map BitVec.toNat =
        m.stream.map BitVec.toNat ++ (if m.block.outv then [m.block.outd.toNat] else []) ++
          encodeByte first.inByte first.inT.toNat ++ more ∧
      (State.acceptsIn (rest.length + 1) ⟨wT, m⟩ = 1 →
        more = [] ∧ m'.block.idle = true ∧ m'.block.fault = false)

/-- The spec's inference in R160: under a fair consumer, one that is ready at some time whenever `out_valid = 1` and need
not be ready while `out_valid = 0`, and without a reset, an accepted frame operation ends after 10 advance steps and at
most `n(b)` transfers, whatever the host offers meanwhile; all its delays are received, in order (R80); and the block
returns to idle, if no other command is accepted. -/
def Obligations.FairConsumerEndsFrame : Prop :=
  ∀ (wT : Nat) (m : Mach wT), m.block.busy = false → m.block.fault = false →
    m.inputs.inValid = true → m.inputs.inT ≠ 0#_ →
    (∀ k, State.resetFree k ⟨wT, m⟩ = true) → State.FairConsumer ⟨wT, m⟩ →
    (∃ (k : Nat) (m' : Mach wT), 0 < k ∧ core.run k (State.mk wT m) = .next (State.mk wT m') ∧
      m'.block.busy = false ∧ State.advancesIn k ⟨wT, m⟩ = 10 ∧
      m'.stream.length ≤ m.stream.length + delayCount m.inputs.inByte) ∧
    (∃ (k : Nat) (m' : Mach wT), core.run k (State.mk wT m) = .next (State.mk wT m') ∧
      m'.stream.map BitVec.toNat =
        m.stream.map BitVec.toNat ++ (if m.block.outv then [m.block.outd.toNat] else []) ++
          encodeByte m.inputs.inByte m.inputs.inT.toNat) ∧
    ((∀ k, State.acceptsIn k ⟨wT, m⟩ ≤ 1) →
      ∃ (k : Nat) (m' : Mach wT), 0 < k ∧ core.run k (State.mk wT m) = .next (State.mk wT m') ∧
        m'.block.idle = true)

/-- R160: a run that is held, with a delay that the consumer does not take, is not finished: the block is not idle, and
no program is at its end. -/
def Obligations.HeldRunIsNotFinished : Prop :=
  ∀ (wT : Nat) (m : Mach wT), m.block.outv = true → m.block.idle = false ∧ m.programEnded = false

/-- R117: a consumer that stays unready leaves the block holding for as long as it does: nothing is lost, received or
changed but that the port samples are used up and the steps are counted. -/
def Obligations.UnreadyConsumerHoldsBlock : Prop :=
  ∀ (wT : Nat) (waiting rest : List (Inputs wT)) (m : Mach wT), m.script = waiting ++ rest →
    m.block.busy = true → m.block.outv = true →
    (∀ i ∈ waiting, i.rst = false ∧ i.outReady = false) →
    core.run waiting.length (State.mk wT m) =
      .next (State.mk wT { m with script := rest, stepNo := m.stepNo + waiting.length })

/-! ## Source and programs (30_encoding.md rules R67 to R69) -/

/-- The assembler takes `ENCODE b, t` exactly where both operands are in range, and its word is `(t << 8) | b`; it
refuses every other one (R67). -/
def Obligations.AssemblerRefusesOutOfRange : Prop :=
  ∀ wT b t : Nat,
    (b ≤ 255 ∧ 1 ≤ t ∧ t ≤ 2 ^ wT - 1 →
      assembleLine wT (.encode b t) = some [.offer (BitVec.ofNat (wT + 8) (t <<< 8 ||| b))]) ∧
    (¬ (b ≤ 255 ∧ 1 ≤ t ∧ t ≤ 2 ^ wT - 1) → assembleLine wT (.encode b t) = none)

/-- R68: `ENCODEBUF` is refused where the list is empty, and else is the commands of its bytes one after another,
refused where one of them is; `ENCODESTR` is `ENCODEBUF` over the codes of its characters. -/
def Obligations.BufferExpandsInOrder : Prop :=
  ∀ wT t : Nat,
    assembleLine wT (.encodeBuf [] t) = none ∧
    (∀ (b : Nat) (bs : List Nat),
      assembleLine wT (.encodeBuf (b :: bs) t) = assemble wT ((b :: bs).map (fun x => .encode x t))) ∧
    (∀ text : List Char,
      assembleLine wT (.encodeStr text t) = assembleLine wT (.encodeBuf (text.map Char.toNat) t))

/-- R69: the implicit reset at step 0, and the host's rule from step 1 on: whatever directives stand before it, the next
command is offered in every step until the step that accepts it, and only then is its line done. A reset in a step in
which it is offered comes from a RESET @ line of that step, or from a RESET line before it with the block idle, and from
nothing else. Those RESET lines are done in that step, all together (log entry 12), and a RESET @ line once its step has
come. -/
def Obligations.HostOffersUntilAccepted : Prop :=
  ∀ (wT : Nat) (m : Mach wT) (p : Running wT), m.script = [] → m.program = some p →
    (p.now = 0 → m.inputs.rst = true) ∧
    (∀ (before : List (HostLine wT)) (w : CommandWord wT) (ls : List (HostLine wT)), p.now ≠ 0 →
      (∀ v, .offer v ∉ before) → p.lines = before ++ .offer w :: ls →
      m.inputs.inValid = true ∧ m.inputs.inByte = commandByte w ∧ m.inputs.inT = commandTime w ∧
      (m.inputs.rst = true ↔ .resetAt p.now ∈ p.lines ∨ .reset ∈ before ∧ m.block.idle = true) ∧
      ∀ m' : Mach wT, step ⟨wT, m⟩ = .next ⟨wT, m'⟩ →
        m'.program =
          some { p with
            lines :=
              ((if m.block.idle then before.filter (· != .reset) else before) ++
                (if m.inputs.rst = false ∧ m.block.busy = false ∧ m.block.fault = false then ls
                else .offer w :: ls)).filter (HostLine.pendingAfter p.now)
            now := p.now + 1 })

/-- R69: `RESET` drives `rst = 1` in the first step in which every command before it has been accepted (no command line
is left before it) and the block is idle; `RESET @ n` drives it in step n exactly. Once no command is left none is
offered, and the RESET lines are done in the step in which the block is idle. That they are done all together, in one
reset step, is the model's reading of a point R69 leaves open (log entry 12). The consumer is ready in every step, or
after the first `n` steps, counted from step 1 (log entry 18). -/
def Obligations.DirectivesDriveReset : Prop :=
  ∀ (wT : Nat) (m : Mach wT) (p : Running wT), m.script = [] → m.program = some p → p.now ≠ 0 →
    (∀ before ls : List (HostLine wT), (∀ w, .offer w ∉ before) → p.lines = before ++ .reset :: ls →
      (m.inputs.rst = true ↔ m.block.idle = true ∨ .resetAt p.now ∈ p.lines)) ∧
    (.resetAt p.now ∈ p.lines → m.inputs.rst = true) ∧
    ((∀ w, .offer w ∉ p.lines) →
      m.inputs.inValid = false ∧
      ∀ m' : Mach wT, step ⟨wT, m⟩ = .next ⟨wT, m'⟩ →
        m'.program =
          some { p with
            lines :=
              (if m.block.idle then p.lines.filter (· != .reset) else p.lines).filter (HostLine.pendingAfter p.now)
            now := p.now + 1 }) ∧
    (p.policy = .ready → m.inputs.outReady = true) ∧
    (∀ n, p.policy = .stall n → (m.inputs.outReady = true ↔ n < p.now))

/-- R69: from a program's end state no further step changes a register, and it stays the end state. That a program with
a directive that can still act has not ended, be the block just reset, is the model's choice (log entry 22). -/
def Obligations.ProgramEndIsFinal : Prop :=
  ∀ (wT : Nat) (m : Mach wT), m.programEnded = true →
    ∃ m', step ⟨wT, m⟩ = .next ⟨wT, m'⟩ ∧ m'.block = m.block ∧ m'.stream = m.stream ∧ m'.programEnded = true
end

