-- ==== Sys2Proof/Laws/Decode.lean ====
section
/-! SUPPORT. The fields of a command word, what the decoder reads and which bits it takes. -/

namespace Sys2Proof

section
variable {wT : Nat}

/-- Field `b` of the word `{t, b}` is `b`. -/
@[simp] theorem commandByte_commandWord (b : Byte) (t : BitTime wT) : commandByte (commandWord b t) = b := by
  apply BitVec.eq_of_getElem_eq
  intro i hi
  simp only [commandByte, commandWord, BitVec.getElem_extractLsb', BitVec.getLsbD_append, Nat.zero_add, hi, if_true]
  exact BitVec.getLsbD_eq_getElem hi

/-- Field `t` of the word `{t, b}` is `t`. -/
@[simp] theorem commandTime_commandWord (b : Byte) (t : BitTime wT) : commandTime (commandWord b t) = t := by
  apply BitVec.eq_of_getElem_eq
  intro i hi
  simp only [commandTime, commandWord, BitVec.getElem_extractLsb', BitVec.getLsbD_append]
  rw [if_neg (by omega), Nat.add_sub_cancel_left, BitVec.getLsbD_eq_getElem hi]

/-- A word is its two fields (rule R60). -/
theorem commandWord_fields (w : CommandWord wT) : commandWord (commandByte w) (commandTime w) = w := by
  apply BitVec.eq_of_getElem_eq
  intro i hi
  simp only [commandByte, commandTime, commandWord, BitVec.getElem_append]
  split
  · simp_all
  · simp only [BitVec.getElem_extractLsb']
    rw [show 8 + (i - 8) = i by omega, BitVec.getLsbD_eq_getElem hi]

/-- As a number, the word `{t, b}` is `t * 256 + b` (rule R67). -/
theorem commandWord_toNat (b : Byte) (t : BitTime wT) : (commandWord b t).toNat = t.toNat * 256 + b.toNat := by
  have hb : b.toNat < 2 ^ 8 := b.isLt
  simp only [commandWord, BitVec.toNat_append]
  rw [← Nat.shiftLeft_add_eq_or_of_lt hb, Nat.shiftLeft_eq]

/-- Field `b` as a number (rule R60). -/
theorem commandByte_toNat (w : CommandWord wT) : (commandByte w).toNat = w.toNat % 256 := by
  have h := commandWord_toNat (commandByte w) (commandTime w)
  rw [commandWord_fields] at h
  have := (commandByte w).isLt
  omega

/-- Field `t` as a number (rule R60). -/
theorem commandTime_toNat (w : CommandWord wT) : (commandTime w).toNat = w.toNat / 256 := by
  have h := commandWord_toNat (commandByte w) (commandTime w)
  rw [commandWord_fields] at h
  have := (commandByte w).isLt
  omega

/-- What the decoder answers, as its two cases (rule R63). -/
theorem decode_cases (w : CommandWord wT) :
    (commandTime w = 0#wT ∧ decode w = .illegal (commandByte w)) ∨
      (commandTime w ≠ 0#wT ∧ decode w = .encode (commandByte w) (commandTime w).toNat) := by
  unfold decode
  by_cases h : commandTime w = 0#wT
  · exact .inl ⟨h, if_pos h⟩
  · exact .inr ⟨h, if_neg h⟩

/-- What is decoded fits the width (rule R62). -/
theorem decode_fits (w : CommandWord wT) : (decode w).fits wT = true := by
  rcases decode_cases w with ⟨-, e⟩ | ⟨-, e⟩ <;> rw [e]
  · rfl
  · exact decide_eq_true (commandTime w).isLt

/-- All `decodeBits` can answer (rule R66). -/
theorem decodeBits_eq_ok {nbits w : Nat} {i : Instr} :
    decodeBits wT nbits w = .ok i ↔ nbits = wT + 8 ∧ w < 2 ^ nbits ∧ i = decode (BitVec.ofNat (wT + 8) w) := by
  unfold decodeBits
  split
  · split <;> simp_all [eq_comm]
  · simp_all

/-- A command word of the machine, given as its bits, is decoded (rules R63, R66). -/
theorem decodeBits_word (w : CommandWord wT) : decodeBits wT (wT + 8) w.toNat = .ok (decode w) :=
  decodeBits_eq_ok.2 ⟨rfl, w.isLt, by rw [BitVec.ofNat_toNat, BitVec.setWidth_eq]⟩

end

end Sys2Proof
end

