-- ==== Sys2Proof/Laws/State.lean ====
section
/-! SUPPORT. One lemma per field per update, each true by definition, so that no later proof unfolds a record
update. -/

namespace Sys2Proof.Machine

section
variable {wT : Nat} (r : Block wT)

@[simp] theorem Block.setBusy_busy : r.setBusy.busy = true := rfl
@[simp] theorem Block.setBusy_fault : r.setBusy.fault = r.fault := rfl
@[simp] theorem Block.setBusy_outv : r.setBusy.outv = r.outv := rfl
@[simp] theorem Block.setBusy_outd : r.setBusy.outd = r.outd := rfl
@[simp] theorem Block.setBusy_level : r.setBusy.level = r.level := rfl
@[simp] theorem Block.setBusy_acc : r.setBusy.acc = r.acc := rfl
@[simp] theorem Block.setBusy_t : r.setBusy.t = r.t := rfl
@[simp] theorem Block.setBusy_frame : r.setBusy.frame = r.frame := rfl
@[simp] theorem Block.setBusy_idx : r.setBusy.idx = r.idx := rfl

@[simp] theorem Block.clearBusy_busy : r.clearBusy.busy = false := rfl
@[simp] theorem Block.clearBusy_fault : r.clearBusy.fault = r.fault := rfl
@[simp] theorem Block.clearBusy_outv : r.clearBusy.outv = r.outv := rfl
@[simp] theorem Block.clearBusy_outd : r.clearBusy.outd = r.outd := rfl
@[simp] theorem Block.clearBusy_level : r.clearBusy.level = r.level := rfl
@[simp] theorem Block.clearBusy_acc : r.clearBusy.acc = r.acc := rfl
@[simp] theorem Block.clearBusy_t : r.clearBusy.t = r.t := rfl
@[simp] theorem Block.clearBusy_frame : r.clearBusy.frame = r.frame := rfl
@[simp] theorem Block.clearBusy_idx : r.clearBusy.idx = r.idx := rfl

@[simp] theorem Block.setFault_busy : r.setFault.busy = r.busy := rfl
@[simp] theorem Block.setFault_fault : r.setFault.fault = true := rfl
@[simp] theorem Block.setFault_outv : r.setFault.outv = r.outv := rfl
@[simp] theorem Block.setFault_outd : r.setFault.outd = r.outd := rfl
@[simp] theorem Block.setFault_level : r.setFault.level = r.level := rfl
@[simp] theorem Block.setFault_acc : r.setFault.acc = r.acc := rfl
@[simp] theorem Block.setFault_t : r.setFault.t = r.t := rfl
@[simp] theorem Block.setFault_frame : r.setFault.frame = r.frame := rfl
@[simp] theorem Block.setFault_idx : r.setFault.idx = r.idx := rfl

@[simp] theorem Block.setOutv_busy : r.setOutv.busy = r.busy := rfl
@[simp] theorem Block.setOutv_fault : r.setOutv.fault = r.fault := rfl
@[simp] theorem Block.setOutv_outv : r.setOutv.outv = true := rfl
@[simp] theorem Block.setOutv_outd : r.setOutv.outd = r.outd := rfl
@[simp] theorem Block.setOutv_level : r.setOutv.level = r.level := rfl
@[simp] theorem Block.setOutv_acc : r.setOutv.acc = r.acc := rfl
@[simp] theorem Block.setOutv_t : r.setOutv.t = r.t := rfl
@[simp] theorem Block.setOutv_frame : r.setOutv.frame = r.frame := rfl
@[simp] theorem Block.setOutv_idx : r.setOutv.idx = r.idx := rfl

@[simp] theorem Block.clearOutv_busy : r.clearOutv.busy = r.busy := rfl
@[simp] theorem Block.clearOutv_fault : r.clearOutv.fault = r.fault := rfl
@[simp] theorem Block.clearOutv_outv : r.clearOutv.outv = false := rfl
@[simp] theorem Block.clearOutv_outd : r.clearOutv.outd = r.outd := rfl
@[simp] theorem Block.clearOutv_level : r.clearOutv.level = r.level := rfl
@[simp] theorem Block.clearOutv_acc : r.clearOutv.acc = r.acc := rfl
@[simp] theorem Block.clearOutv_t : r.clearOutv.t = r.t := rfl
@[simp] theorem Block.clearOutv_frame : r.clearOutv.frame = r.frame := rfl
@[simp] theorem Block.clearOutv_idx : r.clearOutv.idx = r.idx := rfl

@[simp] theorem Block.emit_busy (d : Delay wT) : (r.emit d).busy = r.busy := rfl
@[simp] theorem Block.emit_fault (d : Delay wT) : (r.emit d).fault = r.fault := rfl
@[simp] theorem Block.emit_outv (d : Delay wT) : (r.emit d).outv = true := rfl
@[simp] theorem Block.emit_outd (d : Delay wT) : (r.emit d).outd = d := rfl
@[simp] theorem Block.emit_level (d : Delay wT) : (r.emit d).level = r.level := rfl
@[simp] theorem Block.emit_acc (d : Delay wT) : (r.emit d).acc = r.acc := rfl
@[simp] theorem Block.emit_t (d : Delay wT) : (r.emit d).t = r.t := rfl
@[simp] theorem Block.emit_frame (d : Delay wT) : (r.emit d).frame = r.frame := rfl
@[simp] theorem Block.emit_idx (d : Delay wT) : (r.emit d).idx = r.idx := rfl

@[simp] theorem Block.raiseBadBitTime_busy : r.raiseBadBitTime.busy = r.busy := rfl
@[simp] theorem Block.raiseBadBitTime_fault : r.raiseBadBitTime.fault = true := rfl
@[simp] theorem Block.raiseBadBitTime_outv : r.raiseBadBitTime.outv = r.outv := rfl
@[simp] theorem Block.raiseBadBitTime_outd : r.raiseBadBitTime.outd = r.outd := rfl
@[simp] theorem Block.raiseBadBitTime_level : r.raiseBadBitTime.level = r.level := rfl
@[simp] theorem Block.raiseBadBitTime_acc : r.raiseBadBitTime.acc = r.acc := rfl
@[simp] theorem Block.raiseBadBitTime_t : r.raiseBadBitTime.t = r.t := rfl
@[simp] theorem Block.raiseBadBitTime_frame : r.raiseBadBitTime.frame = r.frame := rfl
@[simp] theorem Block.raiseBadBitTime_idx : r.raiseBadBitTime.idx = r.idx := rfl

@[simp] theorem Block.startFrame_busy (b : Byte) (t : BitTime wT) : (r.startFrame b t).busy = true := rfl
@[simp] theorem Block.startFrame_fault (b : Byte) (t : BitTime wT) : (r.startFrame b t).fault = r.fault := rfl
@[simp] theorem Block.startFrame_outv (b : Byte) (t : BitTime wT) : (r.startFrame b t).outv = r.outv := rfl
@[simp] theorem Block.startFrame_outd (b : Byte) (t : BitTime wT) : (r.startFrame b t).outd = r.outd := rfl
@[simp] theorem Block.startFrame_level (b : Byte) (t : BitTime wT) : (r.startFrame b t).level = false := rfl
@[simp] theorem Block.startFrame_acc (b : Byte) (t : BitTime wT) : (r.startFrame b t).acc = zextDelay t := rfl
@[simp] theorem Block.startFrame_t (b : Byte) (t : BitTime wT) : (r.startFrame b t).t = t := rfl
@[simp] theorem Block.startFrame_frame (b : Byte) (t : BitTime wT) : (r.startFrame b t).frame = frameWord b := rfl
@[simp] theorem Block.startFrame_idx (b : Byte) (t : BitTime wT) : (r.startFrame b t).idx = 0#4 := rfl

@[simp] theorem Block.scanSame_busy : r.scanSame.busy = r.busy := rfl
@[simp] theorem Block.scanSame_fault : r.scanSame.fault = r.fault := rfl
@[simp] theorem Block.scanSame_outv : r.scanSame.outv = r.outv := rfl
@[simp] theorem Block.scanSame_outd : r.scanSame.outd = r.outd := rfl
@[simp] theorem Block.scanSame_level : r.scanSame.level = r.level := rfl
@[simp] theorem Block.scanSame_acc : r.scanSame.acc = r.acc + zextDelay r.t := rfl
@[simp] theorem Block.scanSame_t : r.scanSame.t = r.t := rfl
@[simp] theorem Block.scanSame_frame : r.scanSame.frame = r.frame := rfl
@[simp] theorem Block.scanSame_idx : r.scanSame.idx = r.idx + 1#4 := rfl

@[simp] theorem Block.scanChange_busy : r.scanChange.busy = r.busy := rfl
@[simp] theorem Block.scanChange_fault : r.scanChange.fault = r.fault := rfl
@[simp] theorem Block.scanChange_outv : r.scanChange.outv = true := rfl
@[simp] theorem Block.scanChange_outd : r.scanChange.outd = r.acc := rfl
@[simp] theorem Block.scanChange_level : r.scanChange.level = !r.level := rfl
@[simp] theorem Block.scanChange_acc : r.scanChange.acc = zextDelay r.t := rfl
@[simp] theorem Block.scanChange_t : r.scanChange.t = r.t := rfl
@[simp] theorem Block.scanChange_frame : r.scanChange.frame = r.frame := rfl
@[simp] theorem Block.scanChange_idx : r.scanChange.idx = r.idx + 1#4 := rfl

@[simp] theorem Block.finalPush_busy : r.finalPush.busy = false := rfl
@[simp] theorem Block.finalPush_fault : r.finalPush.fault = r.fault := rfl
@[simp] theorem Block.finalPush_outv : r.finalPush.outv = true := rfl
@[simp] theorem Block.finalPush_outd : r.finalPush.outd = r.acc := rfl
@[simp] theorem Block.finalPush_level : r.finalPush.level = r.level := rfl
@[simp] theorem Block.finalPush_acc : r.finalPush.acc = r.acc := rfl
@[simp] theorem Block.finalPush_t : r.finalPush.t = r.t := rfl
@[simp] theorem Block.finalPush_frame : r.finalPush.frame = r.frame := rfl
@[simp] theorem Block.finalPush_idx : r.finalPush.idx = r.idx := rfl

@[simp] theorem Block.resetStep_busy (n : Nat) : (Block.resetStep (wT := wT) n).busy = false := rfl
@[simp] theorem Block.resetStep_fault (n : Nat) : (Block.resetStep (wT := wT) n).fault = false := rfl
@[simp] theorem Block.resetStep_outv (n : Nat) : (Block.resetStep (wT := wT) n).outv = false := rfl

end

section
variable {wT : Nat} (m : Mach wT)

@[simp] theorem Mach.onBlock_block (f : Block wT → Block wT) : (m.onBlock f).block = f m.block := rfl
@[simp] theorem Mach.onBlock_stream (f : Block wT → Block wT) : (m.onBlock f).stream = m.stream := rfl
@[simp] theorem Mach.onBlock_segments (f : Block wT → Block wT) : (m.onBlock f).segments = m.segments := rfl
@[simp] theorem Mach.onBlock_script (f : Block wT → Block wT) : (m.onBlock f).script = m.script := rfl
@[simp] theorem Mach.onBlock_program (f : Block wT → Block wT) : (m.onBlock f).program = m.program := rfl
@[simp] theorem Mach.onBlock_stepNo (f : Block wT → Block wT) : (m.onBlock f).stepNo = m.stepNo := rfl

@[simp] theorem Mach.transfer_block : m.transfer.block = m.block.clearOutv := rfl
@[simp] theorem Mach.transfer_stream : m.transfer.stream = m.stream ++ [m.block.outd] := rfl
@[simp] theorem Mach.transfer_segments : m.transfer.segments = m.segments := rfl
@[simp] theorem Mach.transfer_script : m.transfer.script = m.script := rfl
@[simp] theorem Mach.transfer_program : m.transfer.program = m.program := rfl
@[simp] theorem Mach.transfer_stepNo : m.transfer.stepNo = m.stepNo := rfl

@[simp] theorem Mach.resetStep_block (n : Nat) : (m.resetStep n).block = Block.resetStep n := rfl
@[simp] theorem Mach.resetStep_stream (n : Nat) : (m.resetStep n).stream = [] := rfl
@[simp] theorem Mach.resetStep_segments (n : Nat) : (m.resetStep n).segments = m.segments ++ [m.stream] := rfl
@[simp] theorem Mach.resetStep_script (n : Nat) : (m.resetStep n).script = m.script := rfl
@[simp] theorem Mach.resetStep_program (n : Nat) : (m.resetStep n).program = m.program := rfl
@[simp] theorem Mach.resetStep_stepNo (n : Nat) : (m.resetStep n).stepNo = m.stepNo := rfl

@[simp] theorem Mach.moveOn_block : m.moveOn.block = m.block := rfl
@[simp] theorem Mach.moveOn_stream : m.moveOn.stream = m.stream := rfl
@[simp] theorem Mach.moveOn_segments : m.moveOn.segments = m.segments := rfl
@[simp] theorem Mach.moveOn_script : m.moveOn.script = m.script.tail := rfl
@[simp] theorem Mach.moveOn_program :
    m.moveOn.program = if m.script.isEmpty then m.program.map (fun p => p.afterStep m.block) else m.program := rfl
@[simp] theorem Mach.moveOn_stepNo : m.moveOn.stepNo = m.stepNo + 1 := rfl

@[simp] theorem Mach.load_block (ls : List (HostLine wT)) (p : Policy) : (m.load ls p).block = m.block := rfl
@[simp] theorem Mach.load_stream (ls : List (HostLine wT)) (p : Policy) : (m.load ls p).stream = m.stream := rfl
@[simp] theorem Mach.load_segments (ls : List (HostLine wT)) (p : Policy) : (m.load ls p).segments = m.segments := rfl
@[simp] theorem Mach.load_script (ls : List (HostLine wT)) (p : Policy) : (m.load ls p).script = [] := rfl
@[simp] theorem Mach.load_program (ls : List (HostLine wT)) (p : Policy) :
    (m.load ls p).program = some { lines := ls, policy := p, now := 0 } := rfl
@[simp] theorem Mach.load_stepNo (ls : List (HostLine wT)) (p : Policy) : (m.load ls p).stepNo = m.stepNo := rfl

@[simp] theorem State.resetAt_wT (n : Nat) : (State.resetAt n).wT = n := rfl
@[simp] theorem Mach.atReset_block (n : Nat) : (Mach.atReset n).block = Block.atReset n := rfl
@[simp] theorem Mach.atReset_stream (n : Nat) : (Mach.atReset n).stream = [] := rfl
@[simp] theorem Block.atReset_busy (n : Nat) : (Block.atReset n).busy = false := rfl
@[simp] theorem Block.atReset_fault (n : Nat) : (Block.atReset n).fault = false := rfl
@[simp] theorem Block.atReset_outv (n : Nat) : (Block.atReset n).outv = false := rfl

/-- A transfer whose guard does not hold (rule R111). -/
@[simp] theorem Mach.transferIf_false : m.transferIf false = m := rfl

/-- A transfer whose guard holds (rule R111). -/
@[simp] theorem Mach.transferIf_true : m.transferIf true = m.transfer := rfl

end

end Sys2Proof.Machine
end

