-- ==== Sys2Proof/Laws/Environment.lean ====
section
/-! SUPPORT. What the functions on a program's lines answer (30_encoding.md rule R69), where `before` is the directives
that stand before the next command. -/

namespace Sys2Proof.Machine

section
variable {wT : Nat} {before : List (HostLine wT)}

/-- Directives are no commands: the next command is the first one after them. -/
theorem nextCommand_append (h : ∀ w, .offer w ∉ before) (ls : List (HostLine wT)) :
    nextCommand (before ++ ls) = nextCommand ls := by
  induction before with
  | nil => rfl
  | cons l _ ih =>
    cases l with
    | offer v => exact absurd List.mem_cons_self (h v)
    | _ => simp_all [nextCommand]

/-- An accepted command's line is taken out, and the directives before it stay. -/
theorem dropCommand_append (h : ∀ w, .offer w ∉ before) (w : CommandWord wT) (ls : List (HostLine wT)) :
    dropCommand (before ++ .offer w :: ls) = before ++ ls := by
  induction before with
  | nil => rfl
  | cons l _ ih =>
    cases l with
    | offer v => exact absurd List.mem_cons_self (h v)
    | _ => simp_all [dropCommand]

/-- Every command before a RESET is accepted exactly if it stands before the next command. -/
theorem resetReached_append (h : ∀ w, .offer w ∉ before) (ls : List (HostLine wT)) :
    resetReached (before ++ ls) = (decide (.reset ∈ before) || resetReached ls) := by
  induction before with
  | nil => simp
  | cons l _ ih =>
    cases l with
    | offer v => exact absurd List.mem_cons_self (h v)
    | _ => simp_all [resetReached]

/-- Those RESET lines are taken out together. -/
theorem dropResets_append (h : ∀ w, .offer w ∉ before) (ls : List (HostLine wT)) :
    dropResets (before ++ ls) = before.filter (· != .reset) ++ dropResets ls := by
  induction before with
  | nil => rfl
  | cons l _ ih =>
    cases l with
    | offer v => exact absurd List.mem_cons_self (h v)
    | _ => simp_all [dropResets]

end

/-- A line that is over is no command. -/
theorem nextCommand_pending {wT : Nat} (ls : List (HostLine wT)) (n : Nat) :
    nextCommand (ls.filter (HostLine.pendingAfter n)) = nextCommand ls := by
  induction ls with
  | nil => rfl
  | cons l _ ih =>
    cases l with
    | offer _ => rfl
    | reset => rw [List.filter_cons_of_pos rfl]; exact ih
    | resetAt k => rw [List.filter_cons]; split <;> simpa [nextCommand] using ih

/-- Nor is it a RESET. -/
theorem resetReached_pending {wT : Nat} (ls : List (HostLine wT)) (n : Nat) :
    resetReached (ls.filter (HostLine.pendingAfter n)) = resetReached ls := by
  induction ls with
  | nil => rfl
  | cons l _ ih =>
    cases l with
    | offer _ => rfl
    | reset => rfl
    | resetAt k => rw [List.filter_cons]; split <;> simpa [resetReached] using ih

section
variable {wT : Nat}

/-- A running program drives the ports once the script is empty. -/
theorem Mach.inputs_of_program {m : Mach wT} {p : Running wT} (hs : m.script = []) (hp : m.program = some p) :
    m.inputs = p.inputs m.block m.stepNo := by
  simp [Mach.inputs, hs, hp]

/-- A script's first sample drives the ports. -/
@[simp] theorem Mach.inputs_of_script (m : Mach wT) (i : Inputs wT) (is : List (Inputs wT)) :
    Mach.inputs { m with script := i :: is } = i := rfl

end

end Sys2Proof.Machine
end

