-- ==== Sys2Proof/Laws/Ops.lean ====
section
/-! SUPPORT. One lemma per shared operation that says all it can do. -/

namespace Sys2Proof.Machine

/-- A mapped outcome answers next exactly where the outcome does. -/
theorem mapNext_eq_next {σ τ φ ρ : Type} (f : σ → τ) (o : Host.Outcome σ φ ρ) (y : τ) :
    mapNext f o = .next y ↔ ∃ x, o = .next x ∧ y = f x := by
  cases o <;> simp [mapNext, eq_comm]

@[simp] theorem mapNext_next {σ τ φ ρ : Type} (f : σ → τ) (x : σ) :
    mapNext (φ := φ) (ρ := ρ) f (.next x) = .next (f x) := rfl

section
variable {wT : Nat} {r r' : Block wT}

theorem Block.inReady_iff : r.inReady = true ↔ r.busy = false ∧ r.fault = false := by simp [Block.inReady]

theorem Block.adv_iff : r.adv = true ↔ r.busy = true ∧ r.fault = false ∧ r.outv = false := by
  simp [Block.adv, and_assoc]

/-- `adv` and `accept` never both hold (rule R30). -/
theorem Block.adv_not_ready (h : r.adv = true) : r.inReady = false := by
  simp [Block.inReady, (Block.adv_iff.1 h).1]

/-- All an advance step can do (rules R85 to R87). -/
theorem Block.advance_cases (h : r.advance = .next r') :
    (r.idx.toNat ≤ 8 ∧ r.scannedBit = r.level ∧ r' = r.scanSame) ∨
      (r.idx.toNat ≤ 8 ∧ r.scannedBit ≠ r.level ∧ r' = r.scanChange) ∨
      (r.idx.toNat = 9 ∧ r' = r.finalPush) := by
  unfold Block.advance at h
  split at h
  · split at h <;> cases h <;> simp_all
  · split at h
    · cases h; simp_all
    · cases h

/-- An advance step answers next while IDX is at most 9. -/
theorem Block.advance_answers (h : r.idx.toNat ≤ 9) : ∃ r', r.advance = .next r' := by
  unfold Block.advance
  split
  · split <;> exact ⟨_, rfl⟩
  · rw [if_pos (by omega)]; exact ⟨_, rfl⟩

/-- All acceptance can do (rule R84). -/
theorem Block.accept_cases (b : Byte) (t : BitTime wT) :
    (t = 0#wT ∧ r.accept b t = r.raiseBadBitTime) ∨ (t ≠ 0#wT ∧ r.accept b t = r.startFrame b t) := by
  unfold Block.accept
  by_cases h : t = 0#wT
  · exact .inl ⟨h, if_pos h⟩
  · exact .inr ⟨h, if_neg h⟩

@[simp] theorem Block.accept_zero (b : Byte) : r.accept b 0#wT = r.raiseBadBitTime := if_pos rfl

theorem Block.accept_of_ne {b : Byte} {t : BitTime wT} (h : t ≠ 0#wT) : r.accept b t = r.startFrame b t := if_neg h

end

/-- `zext_W_D` keeps the number (rule R62). -/
@[simp] theorem zextDelay_toNat {wT : Nat} (t : BitTime wT) : (zextDelay t).toNat = t.toNat := by
  simp only [zextDelay, BitVec.toNat_setWidth]
  exact Nat.mod_eq_of_lt (lt_of_lt_of_le t.isLt (Nat.pow_le_pow_right (by omega) (by omega)))

/-- A bit of `{1, b}` (rule R61). -/
theorem frameWord_bit (b : Byte) (i : Nat) : (frameWord b).getLsbD i = if i < 8 then b.getLsbD i else decide (i = 8) := by
  simp only [frameWord, BitVec.getLsbD_append]
  split
  · rfl
  · rcases Nat.lt_or_ge (i - 8) 1 with h | h
    · rw [show i = 8 by omega]; rfl
    · rw [BitVec.getLsbD_of_ge _ _ h]; simp; omega

/-- `{1, b}` as a number (rule R61). -/
theorem frameWord_toNat (b : Byte) : (frameWord b).toNat = 256 + b.toNat := by
  revert b; decide

/-- The index after a scan step: it does not wrap while a bit is left to scan (rules R27, R85, R86). -/
theorem index_succ_toNat {i : Index} (h : i.toNat ≤ 8) : (i + 1#4).toNat = i.toNat + 1 := by
  revert i; decide

/-- Offering a command, at a width (rules R22, R30). -/
theorem State.offer_eq {wT : Nat} (f : (wT : Nat) → Block wT → Block wT) (m : Mach wT) :
    State.offer f ⟨wT, m⟩ = ⟨wT, if m.block.inReady then m.onBlock (f wT) else m⟩ := rfl

/-- ILLEGAL, as one equation (rule R130). -/
theorem exec_illegal {wT : Nat} (b : Byte) (m : Mach wT) :
    exec (.illegal b) ⟨wT, m⟩ =
      .next ⟨wT, if m.block.inReady then m.onBlock Block.raiseBadBitTime else m⟩ := rfl

/-- ENCODE with a bit time that fits the width (rule R84). -/
theorem exec_encode {wT t : Nat} (b : Byte) (m : Mach wT) (h : t < 2 ^ wT) :
    exec (.encode b t) ⟨wT, m⟩ =
      .next ⟨wT, if m.block.inReady then m.onBlock (Block.accept b (BitVec.ofNat wT t)) else m⟩ := if_pos h

/-- ENCODE with a bit time that no word of the machine carries (rule R62, U11; log entry 21). -/
theorem exec_encode_too_wide {wT t : Nat} (b : Byte) (m : Mach wT) (h : 2 ^ wT ≤ t) :
    exec (.encode b t) ⟨wT, m⟩ = .refused .operandOutOfRange := if_neg (Nat.not_lt.2 h)

/-- A decoded command always answers next: where the block is ready it is accepted (rules R63, R84, R130). -/
theorem exec_decode {wT : Nat} (w : CommandWord wT) (m : Mach wT) :
    exec (decode w) ⟨wT, m⟩ =
      .next ⟨wT, if m.block.inReady then m.onBlock (Block.accept (commandByte w) (commandTime w)) else m⟩ := by
  rcases decode_cases w with ⟨h, e⟩ | ⟨-, e⟩ <;> rw [e]
  · rw [exec_illegal, h, show Block.accept (commandByte w) 0#wT = Block.raiseBadBitTime from
      funext fun r => r.accept_zero _]
  · rw [exec_encode _ _ (commandTime w).isLt, BitVec.ofNat_toNat, BitVec.setWidth_eq]

end Sys2Proof.Machine
end

