-- ==== Sys2Proof/Laws/PerInstr.lean ====
section
/-! SUPPORT. Statements about every instruction as syntax, one lemma per constructor. -/

namespace Sys2Proof.Laws.WordLayout

/-- The byte an instruction's word carries in bits 7 to 0. -/
def byteOf : Instr → Byte
  | .illegal b => b
  | .encode b _ => b

/-- The bit time an instruction's word carries in the bits above (rule R60). -/
def timeOf : Instr → Nat
  | .illegal _ => 0
  | .encode _ t => t

/-- At every width the instruction fits, its word is `t * 256 + b` (rules R60, R67). -/
def Statement (i : Instr) : Prop :=
  ∀ wT : Nat, i.fits wT = true → (Sys2Proof.encode wT i).toNat = timeOf i * 256 + (byteOf i).toNat

theorem illegal (b : Byte) : Statement (.illegal b) := fun wT _ => by
  rw [Sys2Proof.encode, commandWord_toNat]
  simp [timeOf, byteOf]

theorem encode (b : Byte) (t : Nat) : Statement (.encode b t) := fun wT h => by
  rw [Sys2Proof.encode, commandWord_toNat, BitVec.toNat_ofNat, Nat.mod_eq_of_lt (of_decide_eq_true h)]
  rfl

end Sys2Proof.Laws.WordLayout
end

