-- ==== Sys2Proof/Laws/Step.lean ====
section
/-! SUPPORT. What one step can do: `step` as an equation in each of its three cases, and the one inversion lemma. -/

namespace Sys2Proof.Machine

variable {wT : Nat} {m : Mach wT} {s' : State}

/-- The command on the input channel always answers next: where the block is ready it is accepted (rule R84), else
nothing happens. -/
theorem Mach.takeCommand_eq (m : Mach wT) (inp : Inputs wT) :
    m.takeCommand inp =
      .next ⟨wT, if m.block.accepts inp then m.onBlock (Block.accept inp.inByte inp.inT) else m⟩ := by
  unfold Mach.takeCommand Block.accepts
  cases inp.inValid
  · rfl
  · rw [if_pos rfl, exec_decode]
    simp only [Inputs.word, commandByte_commandWord, commandTime_commandWord, Bool.true_and]

/-- A transfer leaves what acceptance reads as it is (rule R30). -/
@[simp] theorem Mach.transferIf_accepts (c : Bool) (m : Mach wT) (inp : Inputs wT) :
    (m.transferIf c).block.accepts inp = m.block.accepts inp := by cases c <;> rfl

/-- A step with `rst = 1` (rule R150). -/
theorem step_reset (h : m.inputs.rst = true) : step ⟨wT, m⟩ = .next ⟨wT, m.moveOn.resetStep m.stepNo⟩ := by
  simp [step, cycle, Mach.act, h]

/-- A step that advances the scan (rule R30). -/
theorem step_advance (h : m.inputs.rst = false) (ha : m.block.adv = true) :
    step ⟨wT, m⟩ = mapNext (fun r => ⟨wT, { m.moveOn with block := r }⟩) m.block.advance := by
  simp [step, cycle, Mach.act, h, ha]

/-- The machine after a step that neither resets nor advances: the transfer if `xfer` holds, then the acceptance if
`accept` holds (rule R30). -/
theorem step_command (h : m.inputs.rst = false) (ha : m.block.adv = false) :
    step ⟨wT, m⟩ = .next ⟨wT,
      if m.block.accepts m.inputs then
        (m.moveOn.transferIf (m.block.xfer m.inputs)).onBlock (Block.accept m.inputs.inByte m.inputs.inT)
      else m.moveOn.transferIf (m.block.xfer m.inputs)⟩ := by
  simp [step, cycle, Mach.act, h, ha, Mach.takeCommand_eq]

/-- All a step that answers next can do. -/
theorem step_cases (h : step ⟨wT, m⟩ = .next s') :
    (m.inputs.rst = true ∧ s' = ⟨wT, m.moveOn.resetStep m.stepNo⟩) ∨
      (m.inputs.rst = false ∧ m.block.adv = true ∧
        ∃ r, m.block.advance = .next r ∧ s' = ⟨wT, { m.moveOn with block := r }⟩) ∨
      (m.inputs.rst = false ∧ m.block.adv = false ∧
        s' = ⟨wT,
          if m.block.accepts m.inputs then
            (m.moveOn.transferIf (m.block.xfer m.inputs)).onBlock (Block.accept m.inputs.inByte m.inputs.inT)
          else m.moveOn.transferIf (m.block.xfer m.inputs)⟩) := by
  rcases Bool.eq_false_or_eq_true m.inputs.rst with hr | hr
  · rw [step_reset hr] at h; cases h; exact .inl ⟨hr, rfl⟩
  · rcases Bool.eq_false_or_eq_true m.block.adv with ha | ha
    · rw [step_advance hr ha, mapNext_eq_next] at h
      exact .inr (.inl ⟨hr, ha, h⟩)
    · rw [step_command hr ha] at h; cases h
      exact .inr (.inr ⟨hr, ha, rfl⟩)

end Sys2Proof.Machine
end

