-- ==== Sys2Proof/Tests/Slice0.lean ====
section
/-! SUPPORT. Tests, whose expected results are the spec's own examples and vectors, and one witness for the hypotheses
of each statement. -/

namespace Sys2Proof.Tests

open Sys2Proof Sys2Proof.Machine

/-! ## Well-formedness: each check refuses an ill-formed term -/

theorem test_wf_encode_zero_time : (Instr.encode 0x12 0).wf 16 = false := by decide
theorem test_wf_encode_wide_time : (Instr.encode 0x12 65536).wf 16 = false := by decide
theorem test_fits_wide_time : (Instr.encode 0x12 2).fits 1 = false := by decide
theorem test_wf_byte_range : (AsmLine.encode 256 1).wf 16 = false := by decide
theorem test_wf_time_zero : (AsmLine.encode 0 0).wf 16 = false := by decide
theorem test_wf_time_range : (AsmLine.encode 0 65536).wf 16 = false := by decide
theorem test_wf_buffer_empty : (AsmLine.encodeBuf [] 100).wf 16 = false := by decide
theorem test_wf_buffer_byte : (AsmLine.encodeBuf [0, 256] 100).wf 16 = false := by decide
theorem test_wf_text_empty : (AsmLine.encodeStr [] 100).wf 16 = false := by decide
theorem test_wf_text_char : (AsmLine.encodeStr [Char.ofNat 0x100] 100).wf 16 = false := by decide
theorem test_wf_word_range : (AsmLine.word 0x1000000).wf 16 = false := by decide
theorem test_width_zero : ¬ Config.widthOk 0 := by decide

/-! ## Decoding: words written from rule R60, `t` in bits 23 to 8 and `b` in bits 7 to 0 -/

/-- 95_test_vectors.md 2.3, first row. -/
theorem test_decode_encode : decode (wT := 16) 0b0000000001100100_01000001 = .encode 0x41 100 := by decide
/-- 95_test_vectors.md 2.3, second row. -/
theorem test_decode_illegal : decode (wT := 16) 0b0000000000000000_00010010 = .illegal 0x12 := by decide
/-- 95_test_vectors.md 2.3, fifth row: only the top half of `t` is set. -/
theorem test_decode_high_time : decodeTableWord 24 0x010000 = some (.encode 0x00 256) := by decide
/-- Rule R60 at `W_T = 1`: the word has nine bits, and bit 8 is `t`. -/
theorem test_decode_width_one : decodeBits 1 9 0b1_01000001 = .ok (.encode 0x41 1) := by rfl
/-- Rule R66: a shorter string of bits is no command. -/
theorem test_decode_too_short : decodeBits 16 8 0x12 = .error .wrongLength := by rfl
/-- Rule R66: nor is a longer one, and placing it does nothing. -/
theorem test_decode_too_long :
    decodeBits 16 32 0x006441 = .error .wrongLength ∧ State.reset.withFetchWord 32 0x006441 = State.reset := ⟨rfl, rfl⟩

/-! ## Source lines -/

/-- 95_test_vectors.md P1, whose line has a comment. -/
theorem test_parse_buffer :
    parseLine "ENCODEBUF [0x00, 0xFF], 100 ; expands".toList = some [.encodeBuf [0x00, 0xFF] 100] := by decide
/-- 95_test_vectors.md P2: `0x003441`, `0x003454`. -/
theorem test_assemble_text :
    assembleLine 16 (.encodeStr ['A', 'T'] 52) = some [.offer 0x003441, .offer 0x003454] := by decide

/-! ## Steps -/

/-- A port sample. -/
def sample (rst inValid : Bool) (b : Byte) (t : BitTime 16) (outReady : Bool) : Inputs 16 :=
  { rst := rst, inValid := inValid, inByte := b, inT := t, outReady := outReady }

/-- A machine with these registers, about to be driven with these samples. -/
def machOf (r : Block 16) (script : List (Inputs 16)) : Mach 16 := { Mach.atReset 16 with block := r, script := script }

/-- Its state. -/
def stateOf (r : Block 16) (script : List (Inputs 16)) : State := { wT := 16, mach := machOf r script }

/-- One field of the state an outcome answers. -/
def field {α : Type} (f : State → α) : Host.Outcome State Fault Refusal → Option α
  | .next s => some (f s)
  | .fault _ => none
  | .refused _ => none

/-- The registers of 95_test_vectors.md T1 after step 9: the run of five zeros is whole. -/
def midFrame : Block 16 :=
  { busy := true, fault := false, outv := false, outd := 100, level := false, acc := 500, t := 100, frame := 0x141,
    idx := 6 }

/-- T1 after step 15: the final push is due. -/
def pushDue : Block 16 :=
  { busy := true, fault := false, outv := false, outd := 100, level := true, acc := 100, t := 100, frame := 0x141,
    idx := 9 }

/-- T1 after step 5: the next bit continues the run. -/
def sameDue : Block 16 :=
  { busy := true, fault := false, outv := false, outd := 100, level := false, acc := 100, t := 100, frame := 0x141,
    idx := 2 }

/-- T1 after step 10: a delay is offered while the frame operation goes on. -/
def holding : Block 16 :=
  { busy := true, fault := false, outv := true, outd := 500, level := true, acc := 100, t := 100, frame := 0x141,
    idx := 7 }

/-- P3 after step 20: the last delay of a frame is offered. -/
def lastOffered : Block 16 :=
  { busy := false, fault := false, outv := true, outd := 7, level := true, acc := 7, t := 7, frame := 0x155, idx := 9 }

/-- A faulted block with a delay still offered (X2). -/
def faulted : Block 16 := { lastOffered with fault := true }

/-- The block right after reset. -/
def atReset : Block 16 := Block.atReset 16

/-- R84's example: accepting `b = 0x41`, `t = 100` gives FRAME = 0x141, ACC = 100, LEVEL = 0, IDX = 0, BUSY = 1. -/
theorem test_encode_accepted :
    field (fun s => (s.mach.block.frame.toNat, s.mach.block.acc.toNat, s.mach.block.level, s.mach.block.idx,
        s.mach.block.busy))
      (step (stateOf atReset [sample false true 0x41 100 true])) = some (0x141, 100, false, 0#4, true) := by decide

/-- T1, step 10: Emit(500), LEVEL = 1, ACC = 100, IDX = 7. -/
theorem test_encode_level_change :
    field (fun s => (s.mach.block.outv, s.mach.block.outd.toNat, s.mach.block.level, s.mach.block.acc.toNat,
        s.mach.block.idx))
      (step (stateOf midFrame [sample false false 0 0 true])) = some (true, 500, true, 100, 7#4) := by decide

/-- V10: the word 0x000012 faults and is not kept. -/
theorem test_illegal_faults :
    field (fun s => (s.mach.block.fault, s.mach.block.busy)) (step (State.reset.withFetchWord 24 0x000012)) =
      some (true, false) := by decide

/-- P3, step 21 (X4): the last delay is transferred and the illegal word is accepted. -/
theorem test_illegal_with_transfer :
    field (fun s => (s.mach.block.fault, s.mach.block.outv, s.mach.stream.map BitVec.toNat))
      (step (stateOf lastOffered [sample false true 0x12 0 true])) = some (true, false, [7]) := by decide

/-- P5, step 2: the command behind RESET @ 6 is on the ports, and nothing is reset. -/
theorem test_offer_behind_reset_at :
    let m : Mach 16 := { machOf midFrame [] with
      program := some { lines := [.resetAt 6, .offer 0x000AF0], policy := .ready, now := 2 } }
    (m.inputs.rst, m.inputs.inValid, m.inputs.inByte, m.inputs.inT) = (false, true, 0xF0, 10) := by decide

/-- R69: the command behind a RESET that is not due is offered all the same. -/
theorem test_offer_behind_reset :
    let m : Mach 16 := { machOf midFrame [] with
      program := some { lines := [.reset, .offer 0x000AF0], policy := .ready, now := 2 } }
    (m.inputs.rst, m.inputs.inValid, m.inputs.inByte, m.inputs.inT) = (false, true, 0xF0, 10) := by decide

/-- R69: two RESET lines in a row name the same step, and one reset step does for both. -/
theorem test_resets_in_a_row :
    ({ lines := [.reset, .resetAt 9, .reset, .offer 0x000AF0, .reset], policy := .ready, now := 2 } :
        Running 16).linesLeft atReset = [.resetAt 9, .offer 0x000AF0, .reset] := by decide

/-- P5, step 6: there `rst = 1`, with the command still on the ports. -/
theorem test_reset_at_its_step :
    let m : Mach 16 := { machOf midFrame [] with
      program := some { lines := [.resetAt 6, .offer 0x000AF0], policy := .ready, now := 6 } }
    (m.inputs.rst, m.inputs.inValid) = (true, true) := by decide

/-! ## Witnesses: states and operands that meet the hypotheses of each statement -/

theorem run_of_midFrame : midFrame.RunOf 5 where
  pos := by decide
  le_nine := by decide
  fits := by decide
  acc_eq := by decide
  same := by
    intro j h h'
    change j ≤ 6 at h
    have h2 : 2 ≤ j := by change 6 < j + 5 at h'; omega
    interval_cases j <;> decide
  maximal := by decide

theorem run_of_pushDue : pushDue.RunOf 1 where
  pos := by decide
  le_nine := by decide
  fits := by decide
  acc_eq := by decide
  same := by
    intro j h h'
    change j ≤ 9 at h
    have h9 : 9 ≤ j := by change 9 < j + 1 at h'; omega
    interval_cases j; decide
  maximal := by decide

theorem inv_midFrame : midFrame.Inv where
  i1 := by decide
  i2_idx := by decide
  i2_t := by decide
  stop := by decide
  i3_i4 := fun _ => ⟨5, run_of_midFrame⟩
  i7 := by decide

theorem inv_pushDue : pushDue.Inv where
  i1 := by decide
  i2_idx := by decide
  i2_t := by decide
  stop := by decide
  i3_i4 := fun _ => ⟨1, run_of_pushDue⟩
  i7 := by decide

/-- An idle sample with a ready consumer. -/
def quiet : Inputs 16 := sample false false 0 0 true

/-- A command sample. -/
def command : Inputs 16 := sample false true 0x41 100 true

/-- Both clauses at the bound between them. -/
theorem witness_DecoderSplitsOnBitTime :
    (0x0000FF : CommandWord 16).toNat / 256 = 0 ∧ (0x000100 : CommandWord 16).toNat / 256 ≠ 0 := by decide

theorem witness_DecodeOfEncodeIsSame :
    (Instr.encode 0xFF 65535).wf 16 = true ∧ (Instr.encode 0xFF 1).wf 1 = true := by decide

/-- One bit less, the length itself at the greatest word, and one bit more. -/
theorem witness_CommandsHaveOneLength :
    23 ≠ 16 + 8 ∧ (24 = 16 + 8 ∧ 2 ^ 24 - 1 < 2 ^ 24) ∧ 25 ≠ 16 + 8 := by decide

theorem witness_IllegalWordsAreOnePerByte :
    (machOf lastOffered []).block.busy = false ∧ (machOf lastOffered []).block.fault = false ∧
      (0x0000FF : CommandWord 16).toNat = (0xFF : Byte).toNat := by decide

/-- Also of EarlierFramesLeaveNoTrace: the greatest bit time. -/
theorem witness_EncodeStartsFrameOperation :
    (machOf lastOffered []).block.busy = false ∧ (machOf lastOffered []).block.fault = false ∧
      0 < 65535 ∧ 65535 < 2 ^ 16 := by decide

theorem witness_IllegalRaisesBadBitTime :
    (machOf lastOffered []).block.busy = false ∧ (machOf lastOffered []).block.fault = false := by decide

/-- The least bit time that is too wide. -/
theorem witness_TooWideBitTimeIsRefused : 2 ^ 16 ≤ 65536 := by decide

/-- Also of CommandsLeaveOutputAlone. -/
theorem witness_CommandWaitsUnlessReady :
    (Instr.encode 0x41 65535).fits (stateOf midFrame []).wT = true ∧ (Instr.illegal 0x41).fits 16 = true ∧
      (stateOf midFrame []).mach.block.busy = true ∧ (stateOf faulted []).mach.block.fault = true := by decide

theorem witness_EarlierFramesLeaveNoTrace :
    0 < 100 ∧ 100 < 2 ^ 16 ∧ atReset.busy = false ∧ atReset.fault = false ∧
      ({ atReset with acc := 9, level := true, idx := 9 } : Block 16).outv = atReset.outv ∧
      ({ atReset with acc := 9, level := true, idx := 9 } : Block 16).outd = atReset.outd := by decide

/-- Also of AcceptingStepLatchesCommand, its clause with `t != 0`. -/
theorem witness_StepRunsOfferedCommand :
    let m := machOf lastOffered [command]
    m.inputs.rst = false ∧ m.inputs.inValid = true ∧ m.block.busy = false ∧ m.block.fault = false ∧
      m.inputs.inT ≠ 0#_ ∧
      decodeBits 16 24 (m.inputs.inT.toNat * 256 + m.inputs.inByte.toNat) = .ok (.encode 0x41 100) :=
  ⟨rfl, rfl, rfl, rfl, by decide, decodeBits_eq_ok.2 ⟨rfl, by decide, by decide⟩⟩

/-- Its two clauses about the program: no sample is left, and one is. -/
theorem witness_StepMovesEnvironmentOn :
    (machOf midFrame []).script = [] ∧ (machOf midFrame [quiet]).script ≠ [] ∧
      (∃ s', step ⟨16, machOf midFrame [quiet]⟩ = .next s') ∧
      ∃ s', step ⟨16, { machOf lastOffered [] with
        program := some { lines := [], policy := .ready, now := 1 } }⟩ = .next s' :=
  ⟨rfl, by decide, ⟨_, rfl⟩, _, rfl⟩

/-- The greatest word. -/
theorem witness_PlacedWordRunsNext : 0xFFFFFF < 2 ^ (16 + 8) := by decide

/-- Of FaultAndTransferTogether (its second clause) and of AcceptingStepLatchesCommand (its clause with `t == 0`). -/
theorem witness_FaultAndTransferTogether :
    let m := machOf lastOffered [sample false true 0x12 0 true]
    m.inputs.rst = false ∧ m.inputs.inValid = true ∧ m.inputs.inT = 0#_ ∧ m.inputs.outReady = true ∧
      m.block.busy = false ∧ m.block.fault = false ∧ m.block.outv = true := by decide

/-- Of FaultAndTransferTogether (its first clause), ResetAbandonsFrame and InvHoldsAfterReset: a reset in the middle of
a frame, with a command offered; and the least width. -/
theorem witness_ResetAbandonsFrame :
    let s := stateOf midFrame [sample true true 0x41 100 true]
    s.mach.inputs.rst = true ∧ Config.widthOk s.wT ∧ Config.widthOk 1 ∧ ∃ s', step s = .next s' :=
  ⟨rfl, by decide, by decide, _, rfl⟩

theorem witness_SameLevelStepExtendsRun :
    let m := machOf sameDue [quiet]
    m.inputs.rst = false ∧ m.block.busy = true ∧ m.block.fault = false ∧ m.block.outv = false ∧
      m.block.idx.toNat ≤ 8 ∧ m.block.frame.getLsbD m.block.idx.toNat = m.block.level := by decide

/-- At the boundary IDX = 8, the last scanned bit. -/
theorem witness_LevelChangeStepEmitsRun :
    let m := machOf { pushDue with level := false, idx := 8 } [quiet]
    m.inputs.rst = false ∧ m.block.busy = true ∧ m.block.fault = false ∧ m.block.outv = false ∧
      m.block.idx.toNat ≤ 8 ∧ m.block.frame.getLsbD m.block.idx.toNat ≠ m.block.level := by decide

/-- Also of FinalPushHasStopLevel. -/
theorem witness_FinalPushEndsFrameOperation :
    let m := machOf pushDue [quiet]
    m.inputs.rst = false ∧ m.block.busy = true ∧ m.block.fault = false ∧ m.block.outv = false ∧
      m.block.idx = 9#4 ∧ State.Inv ⟨16, m⟩ := ⟨rfl, rfl, rfl, rfl, rfl, by decide, inv_pushDue⟩

/-- The second clause of ScanHoldsWhileOutputFull, at both ends of IDX's way. -/
theorem witness_ScanResumes :
    (stateOf midFrame [quiet]).Inv ∧ (stateOf pushDue [quiet]).Inv ∧ quiet.rst = false ∧ midFrame.busy = true ∧
      midFrame.outv = false ∧ pushDue.busy = true ∧ pushDue.outv = false :=
  ⟨⟨by decide, inv_midFrame⟩, ⟨by decide, inv_pushDue⟩, rfl, rfl, rfl, rfl, rfl⟩

/-- Of ScanHoldsWhileOutputFull (its first clause) and of both clauses of TransferDeliversOfferedDelay. -/
theorem witness_ScanHoldsWhileOutputFull :
    let m := machOf holding [quiet]
    let u := machOf holding [sample false false 0 0 false]
    m.inputs.rst = false ∧ m.block.busy = true ∧ m.block.outv = true ∧ m.inputs.outReady = true ∧
      u.inputs.rst = false ∧ u.inputs.outReady = false := by decide

/-- Of its two clauses about a step: this one loads OUTD and sets OUTV. -/
theorem witness_EmitNeverOverwritesDelay :
    let m := machOf midFrame [quiet]
    m.inputs.rst = false ∧ m.block.outv = false ∧
      ∃ m' : Mach 16, step ⟨16, m⟩ = .next ⟨16, m'⟩ ∧ m'.block.outv = true ∧ m'.block.outd ≠ m.block.outd :=
  ⟨rfl, rfl, _, rfl, rfl, by decide⟩

/-- Its two clauses. -/
theorem witness_FaultStaysUntilReset :
    let m := machOf faulted [command]
    let u := machOf faulted [sample true false 0 0 true]
    m.block.fault = true ∧ m.inputs.rst = false ∧ u.block.fault = true ∧ u.inputs.rst = true := by decide

/-- The boundary of its range: IDX = 10 stops, IDX = 9 does not. -/
theorem witness_StepStopsOnlyOutsideIndexRange :
    step (stateOf { pushDue with idx := 10 } [quiet]) = .fault .indexOutOfRange ∧
      ∃ s', step (stateOf pushDue [quiet]) = .next s' := ⟨rfl, _, rfl⟩

theorem witness_AcceptedExactlyWhenReady :
    ∃ m' : Mach 16, step ⟨16, machOf lastOffered [command]⟩ = .next ⟨16, m'⟩ := ⟨_, rfl⟩

theorem witness_PortsShowRegisters : (machOf holding []).outputs.outValid = true := by decide

theorem witness_OperandsAreLatched :
    (machOf midFrame []).block.busy = true ∧ quiet.rst = command.rst ∧ quiet.outReady = command.outReady := by decide

/-- Its three clauses: an advance step, a step without a guard, and a step that has a rule. -/
theorem witness_StepIsSimultaneousTransfer :
    let m := machOf midFrame [quiet]
    let u := machOf atReset [quiet]
    m.block.adv = true ∧ m.block.noRule m.inputs = false ∧ u.inputs.rst = false ∧ u.block.adv = false ∧
      u.block.xfer u.inputs = false ∧ u.block.accepts u.inputs = false := by decide

theorem witness_StepKeepsInv :
    (stateOf midFrame [quiet]).Inv ∧ ∃ s', step (stateOf midFrame [quiet]) = .next s' :=
  ⟨⟨by decide, inv_midFrame⟩, _, rfl⟩

/-- Of InvKeptAtEveryWidth, AccumulatorNeverWraps, EmittedPlusAccumulated and StepDeliversWhatIsOwed. -/
theorem witness_InvKeptAtEveryWidth : midFrame.Inv ∧ midFrame.busy = true ∧ quiet.rst = false :=
  ⟨inv_midFrame, rfl, rfl⟩

theorem witness_DutifulHostNeverFaults :
    let s := stateOf midFrame [quiet]
    s.Inv ∧ s.mach.block.fault = false ∧ s.mach.inputs.keepsDuty = true ∧ command.keepsDuty = true :=
  ⟨⟨by decide, inv_midFrame⟩, rfl, rfl, rfl⟩

/-- Of every statement about the reference function: `t = 1` is the boundary. -/
theorem witness_DelaysAreOneToNineBitTimes : 1 ≤ 1 ∧ 9 ∈ encodeByte 0x00 1 := by decide

theorem witness_StepKeepsStreamTracked :
    let s := stateOf atReset [command]
    s.Inv ∧ s.Tracks [] ∧ s.mach.inputs.rst = false ∧ ∃ s', step s = .next s' :=
  ⟨⟨by decide, by decide, by decide, by decide, by decide, fun h => absurd h (by decide), by decide⟩, rfl, rfl,
    _, rfl⟩

/-- Of StreamIsConcatenation and StreamTotalsArePerByte: one step in which nothing is offered leaves the block idle, one
in which a command is accepted does not. -/
theorem witness_StreamIsConcatenation :
    let s := stateOf atReset [quiet]
    let u := stateOf atReset [command]
    s.mach.block.idle = true ∧ s.mach.stream = [] ∧ s.resetFree 1 = true ∧
      (∃ s', core.run 1 s = .next s' ∧ s'.mach.block.idle = true) ∧
      u.resetFree 1 = true ∧ ∃ u', core.run 1 u = .next u' ∧ u.acceptedIn 1 = [(0x41, 100)] :=
  ⟨rfl, rfl, rfl, ⟨_, rfl, rfl⟩, rfl, _, rfl, rfl⟩

/-- Of FrameOperationRunsToEnd, IsolatedFrameStepCount and EncodeAppendsItsDelays: the least number of ready samples. -/
theorem witness_FrameOperationRunsToEnd :
    let m := machOf atReset (command :: List.replicate 16 quiet)
    m.script = command :: List.replicate 16 quiet ∧ m.block.idle = true ∧ m.block.busy = false ∧
      m.block.fault = false ∧ command.rst = false ∧ command.inValid = true ∧ command.inT ≠ 0#_ ∧
      (∀ i ∈ List.replicate 16 quiet, i.rst = false ∧ i.inValid = false ∧ i.outReady = true) ∧
      10 + delayCount command.inByte + (if m.block.outv then 1 else 0) ≤
        (List.replicate 16 quiet).countP (fun i => i.outReady) := by decide

/-- Of FrameOperationRunsToEnd: a host that keeps its next command on the ports while BUSY = 1 (R69) and takes it back
in time, so that one command is accepted; `b = 0x00` has the fewest delays. -/
theorem witness_offers_while_busy :
    let first : Inputs 16 := sample false true 0x00 100 true
    let rest := List.replicate 10 command ++ List.replicate 2 quiet
    (∀ i ∈ rest, i.rst = false) ∧ 10 + delayCount first.inByte ≤ rest.countP (fun i => i.outReady) ∧
      Block.runAccepts 0 atReset (first :: rest) = 1 := by decide

/-- Of EncodeAppendsItsDelays: the same of the machine. -/
theorem witness_machine_offers_while_busy :
    State.acceptsIn 13 (stateOf atReset
      (sample false true 0x00 100 true :: (List.replicate 10 command ++ List.replicate 2 quiet))) = 1 := by decide

theorem witness_UnreadyConsumerHoldsBlock :
    let waiting := List.replicate 2 (sample false true 0x41 0 false)
    let m := machOf holding (waiting ++ [quiet])
    m.script = waiting ++ [quiet] ∧ m.block.busy = true ∧ m.block.outv = true ∧
      ∀ i ∈ waiting, i.rst = false ∧ i.outReady = false := by decide

/-- At the bounds of both operands, and just beyond one. -/
theorem witness_AssemblerRefusesOutOfRange :
    (255 ≤ 255 ∧ 1 ≤ 65535 ∧ 65535 ≤ 2 ^ 16 - 1) ∧ ¬ (256 ≤ 255 ∧ 1 ≤ 1 ∧ 1 ≤ 2 ^ 16 - 1) := by decide

/-- A machine with a program running. -/
def running (r : Block 16) (p : Running 16) : Mach 16 := { machOf r [] with program := some p }

/-- Its two clauses: step 0, and a step with a command behind a RESET and two RESET @ lines, the second of which names
the step, with a busy and with an idle block (P5 has the command behind one RESET @). -/
theorem witness_HostOffersUntilAccepted :
    let p : Running 16 :=
      { lines := [.resetAt 6, .reset, .resetAt 2, .offer 0x000AF0, .reset], policy := .ready, now := 2 }
    let m := running midFrame p
    m.script = [] ∧ m.program = some p ∧ p.now ≠ 0 ∧
      (∀ v, .offer v ∉ [.resetAt 6, .reset, HostLine.resetAt (wT := 16) 2]) ∧
      p.lines = [.resetAt 6, .reset, .resetAt 2] ++ .offer 0x000AF0 :: [.reset] ∧
      ({ p with now := 0 } : Running 16).now = 0 ∧
      (∃ m' : Mach 16, step ⟨16, m⟩ = .next ⟨16, m'⟩) ∧
      ∃ m' : Mach 16, step ⟨16, running atReset p⟩ = .next ⟨16, m'⟩ :=
  ⟨rfl, rfl, by decide, by simp, rfl, rfl, ⟨_, rfl⟩, _, rfl⟩

/-- Its clauses, each by a program of its own: a RESET behind a RESET @ of a later step with an idle and with a busy
block, a RESET @ in its step, lines without a command, and both policies. -/
theorem witness_DirectivesDriveReset :
    let p : Running 16 := { lines := [.resetAt 9, .reset, .offer 0x006441], policy := .ready, now := 5 }
    let q : Running 16 := { lines := [.reset, .resetAt 5, .reset], policy := .ready, now := 5 }
    let u : Running 16 := { lines := [.offer 0x006441, .resetAt 5], policy := .stall 4, now := 5 }
    p.now ≠ 0 ∧ (∀ w, .offer w ∉ [HostLine.resetAt (wT := 16) 9]) ∧
      p.lines = [.resetAt 9] ++ .reset :: [.offer 0x006441] ∧ p.policy = .ready ∧
      (running atReset p).script = [] ∧ (running atReset p).program = some p ∧
      (running atReset p).block.idle = true ∧ (running midFrame p).block.idle = false ∧
      (∀ w, .offer w ∉ q.lines) ∧ (∃ m' : Mach 16, step ⟨16, running atReset q⟩ = .next ⟨16, m'⟩) ∧
      .resetAt u.now ∈ u.lines ∧ u.policy = .stall 4 :=
  ⟨by decide, by simp, rfl, rfl, rfl, rfl, rfl, rfl, by simp, ⟨_, rfl⟩, by decide, rfl⟩

/-- Both kinds of end: idle with every line done, and faulted with a command left (P3). -/
theorem witness_ProgramEndIsFinal :
    (running atReset { lines := [], policy := .ready, now := 26 }).programEnded = true ∧
      (running { faulted with outv := false }
        { lines := [.offer 0x000734], policy := .ready, now := 22 }).programEnded = true := by decide

/-! A program of one command with an always-ready consumer: its whole run is fair, has no reset and accepts no more than
that command. -/

/-- What is left of such a program. -/
def oneCommand (left : Bool) (n : Nat) : Running 16 :=
  { lines := if left then [.offer 0x006441] else [], policy := .ready, now := n + 1 }

/-- It drives the machine. -/
def Drives (left : Bool) (m : Mach 16) : Prop := m.script = [] ∧ ∃ n, m.program = some (oneCommand left n)

/-- Its ports (R69). -/
theorem oneCommand_ports (left : Bool) (n : Nat) (r : Block 16) (k : Nat) :
    ((oneCommand left n).inputs r k).rst = false ∧ ((oneCommand left n).inputs r k).outReady = true ∧
      ((oneCommand left n).inputs r k).inValid = left := by
  cases left <;>
    simp [oneCommand, Running.inputs, Running.rst, Running.resetDue, resetReached, Running.offered, nextCommand,
      Policy.outReady]

/-- Its line is done when the block is ready (R69). -/
theorem oneCommand_afterStep (left : Bool) (n : Nat) (r : Block 16) :
    (oneCommand left n).afterStep r = oneCommand (left && !r.inReady) (n + 1) := by
  cases left <;> cases h : r.inReady <;>
    simp [oneCommand, Running.afterStep, Running.linesLeft, Running.rst, Running.resetDue, resetReached, Running.offered,
      nextCommand, dropCommand, List.filter_cons, HostLine.pendingAfter, h]

/-- The ports of a machine it drives. -/
theorem Drives.ports {left : Bool} {m : Mach 16} (h : Drives left m) :
    m.inputs.rst = false ∧ m.inputs.outReady = true ∧ m.inputs.inValid = left := by
  obtain ⟨hs, n, hp⟩ := h
  rw [Mach.inputs_of_program hs hp]
  exact oneCommand_ports left n m.block m.stepNo

/-- It goes on driving the machine. -/
theorem Drives.step {left : Bool} {m : Mach 16} {s' : State} (h : Drives left m) (hstep : step ⟨16, m⟩ = .next s') :
    ∃ m' : Mach 16, s' = ⟨16, m'⟩ ∧ Drives (left && !m.block.inReady) m' := by
  obtain ⟨hs, n, hp⟩ := h
  have hm : Drives (left && !m.block.inReady) m.moveOn :=
    ⟨by simp [hs], n + 1, by simp [hs, hp, oneCommand_afterStep]⟩
  rcases step_cases hstep with ⟨-, rfl⟩ | ⟨-, -, r, -, rfl⟩ | ⟨-, -, rfl⟩
  · exact ⟨_, rfl, hm⟩
  · exact ⟨_, rfl, hm⟩
  · refine ⟨_, rfl, ?_⟩
    cases m.block.accepts m.inputs <;> cases m.block.xfer m.inputs <;> exact hm

/-- So it does over any number of steps. -/
theorem Drives.run {k : Nat} : ∀ {left : Bool} {m : Mach 16} {s' : State}, Drives left m →
    core.run k (State.mk 16 m) = .next s' → ∃ (l : Bool) (m' : Mach 16), s' = ⟨16, m'⟩ ∧ Drives l m' := by
  induction k with
  | zero => intro left m s' h hr; cases hr; exact ⟨left, m, rfl, h⟩
  | succ k ih =>
    intro left m s' h hr
    cases hst : Sys2Proof.Machine.step ⟨16, m⟩ with
    | next t =>
      obtain ⟨m₁, rfl, h₁⟩ := h.step hst
      exact ih h₁ (by simpa [Host.Core.run, core, hst] using hr)
    | fault f => simp [Host.Core.run, core, hst] at hr
    | refused x => simp [Host.Core.run, core, hst] at hr

/-- Its consumer is fair. -/
theorem Drives.fair {left : Bool} {m : Mach 16} (h : Drives left m) : State.FairConsumer ⟨16, m⟩ := by
  intro k s' hr _
  obtain ⟨l, m', rfl, h'⟩ := h.run hr
  exact ⟨0, _, rfl, h'.ports.2.1⟩

/-- It resets nothing. -/
theorem Drives.resetFree {k : Nat} : ∀ {left : Bool} {m : Mach 16}, Drives left m →
    State.resetFree k ⟨16, m⟩ = true := by
  induction k with
  | zero => intros; rfl
  | succ k ih =>
    intro left m h
    simp only [State.resetFree, h.ports.1, Bool.not_false, Bool.true_and]
    split
    · next s' hst => obtain ⟨m', rfl, h'⟩ := h.step hst; exact ih h'
    all_goals rfl

/-- Its command is accepted once at most. -/
theorem Drives.accepts {k : Nat} : ∀ {left : Bool} {m : Mach 16}, Drives left m →
    State.acceptsIn k ⟨16, m⟩ ≤ left.toNat := by
  induction k with
  | zero => intros; exact Nat.zero_le _
  | succ k ih =>
    intro left m h
    simp only [State.acceptsIn, Block.accepts, h.ports.1, h.ports.2.2, Bool.not_false, Bool.true_and]
    cases hst : Sys2Proof.Machine.step ⟨16, m⟩ with
    | next s' =>
      obtain ⟨m', rfl, h'⟩ := h.step hst
      have := ih h'
      cases left <;> cases hb : m.block.inReady <;> simp_all
    | fault f => cases left <;> cases m.block.inReady <;> simp
    | refused x => cases left <;> cases m.block.inReady <;> simp

/-- Of all its clauses, with a delay still offered. -/
theorem witness_FairConsumerEndsFrame :
    let m := running lastOffered (oneCommand true 0)
    m.block.busy = false ∧ m.block.fault = false ∧ m.inputs.inValid = true ∧ m.inputs.inT ≠ 0#_ ∧
      (∀ k, State.resetFree k ⟨16, m⟩ = true) ∧ State.FairConsumer ⟨16, m⟩ ∧
      ∀ k, State.acceptsIn k ⟨16, m⟩ ≤ 1 :=
  have h : Drives true (running lastOffered (oneCommand true 0)) := ⟨rfl, 0, rfl⟩
  ⟨rfl, rfl, rfl, by decide, fun _ => h.resetFree, h.fair, fun _ => h.accepts⟩

theorem witness_HeldRunIsNotFinished : (running holding (oneCommand false 0)).block.outv = true := by decide

end Sys2Proof.Tests
end

section
/-! PROOFS. The scope family (00_scope.md): what `step` does to the environment at every width, and the invariants of
rule R29 at reset and under rule R30's register transfer.

The transfer is first shown to do one of the shared actions (advance, transfer, acceptance); the invariants are then
shown once for each action. -/

namespace Sys2Proof.Machine

section
variable {wT k : Nat} {r r' : Block wT} {inp : Inputs wT}

/-! ## The register transfer, action by action (rule R30) -/

/-- The block's side of a step's transfer, where its guard holds (rule R111). -/
def Block.afterXfer {wT : Nat} (r : Block wT) (inp : Inputs wT) : Block wT :=
  if r.xfer inp then r.clearOutv else r

/-- It is what the machine's transfer does to the registers. -/
theorem Mach.transferIf_xfer_block (m : Mach wT) (inp : Inputs wT) :
    (m.transferIf (m.block.xfer inp)).block = m.block.afterXfer inp := by
  unfold Block.afterXfer
  cases m.block.xfer inp <;> rfl

/-- A transfer moves OUTV alone (rule R111). -/
theorem Block.afterXfer_eq (r : Block wT) (inp : Inputs wT) :
    r.afterXfer inp = { r with outv := if r.xfer inp then false else r.outv } := by
  unfold Block.afterXfer
  cases r.xfer inp <;> rfl

/-- A transfer leaves a ready block ready (rules R22, R111). -/
@[simp] theorem Block.afterXfer_inReady : (r.afterXfer inp).inReady = r.inReady := by
  rw [Block.afterXfer_eq]; rfl

/-- An advance step accepts nothing (rule R30). -/
theorem Block.not_accepts_of_adv (ha : r.adv = true) : r.accepts inp = false := by
  simp [Block.accepts, Block.adv_not_ready ha]

/-- An advance step transfers nothing (rule R30). -/
theorem Block.not_xfer_of_adv (ha : r.adv = true) : r.xfer inp = false := by
  simp [Block.xfer, (Block.adv_iff.1 ha).2.2]

/-- In an advance step the register transfer writes what the advance writes (rules R85 to R87). -/
theorem Block.moved_of_advance (ha : r.adv = true) (h : r.advance = .next r') : r.moved inp = r' := by
  simp only [Block.moved, Block.startDue, Block.badDue, Block.sameDue, Block.changeDue, Block.pushDue,
    Block.not_accepts_of_adv ha, Block.not_xfer_of_adv ha, ha, Bool.false_and, Bool.true_and]
  have hne : r.idx.toNat ≤ 8 → r.idx ≠ 9#4 := by rintro hi e; simp [e] at hi
  rcases Block.advance_cases h with ⟨hi, hs, rfl⟩ | ⟨hi, hs, rfl⟩ | ⟨hi, rfl⟩
  · simp [Block.scanSame, hi, hs, hne hi]
  · simp [Block.scanChange, Block.emit, Block.setOutv, hi, hs, hne hi]
  · simp [Block.finalPush, Block.emit, Block.setOutv, Block.clearBusy, BitVec.eq_of_toNat_eq (y := 9#4) hi]

/-- In any other step it writes what the transfer and then the acceptance write (rules R84, R111, R130). -/
theorem Block.moved_of_not_adv (ha : r.adv = false) :
    r.moved inp =
      if r.accepts inp then (r.afterXfer inp).accept inp.inByte inp.inT else r.afterXfer inp := by
  simp only [Block.moved, Block.startDue, Block.badDue, Block.sameDue, Block.changeDue, Block.pushDue, ha,
    Bool.false_and]
  rcases Bool.eq_false_or_eq_true (r.accepts inp) with hacc | hacc
  · by_cases ht : inp.inT = 0#wT
    · simp [hacc, ht, Block.afterXfer_eq, Block.raiseBadBitTime, Block.setFault]
    · simp [hacc, ht, Block.accept_of_ne ht, Block.afterXfer_eq, Block.startFrame, Block.setBusy, Config.startBit]
  · simp [hacc, Block.afterXfer_eq]

/-! ## The run in ACC (rule R29: I3, I4) -/

/-- The level of a run is that of its last position, IDX. -/
theorem Block.RunOf.framePos_idx (h : r.RunOf k) : framePos r.frame r.idx.toNat = r.level :=
  h.same _ le_rfl (by have := h.pos; omega)

/-- A run whose next bit continues it has not reached nine positions: from position 0 on it is at the start bit's level,
and the ninth scanned bit is the stop bit. -/
theorem Block.RunOf.lt_nine (h : r.RunOf k) (hi : r.idx.toNat ≤ 8) (hstop : r.frame.getLsbD 8 = true)
    (hs : r.scannedBit = r.level) : k < 9 := by
  by_contra hk
  have hfits := h.fits
  have h8 : r.idx.toNat = 8 := by omega
  have hstart : framePos r.frame 0 = r.level := h.same 0 (by omega) (by omega)
  rw [← hs, Block.scannedBit, h8, hstop] at hstart
  cases hstart

/-- Nine bit times, the longest run, fit the `W_T + 4` bits of ACC (rule R92). -/
theorem mul_toNat_lt_delay (hk : k ≤ 9) (t : BitTime wT) : k * t.toNat < 2 ^ (wT + 4) := by
  have := t.isLt
  have := Nat.mul_le_mul_right t.toNat hk
  rw [pow_add]
  omega

/-- Extending the run by the bit scanned (rule R85). -/
theorem Block.RunOf.scanSame (h : r.RunOf k) (hi : r.idx.toNat ≤ 8) (hk : k < 9) (hs : r.scannedBit = r.level) :
    r.scanSame.RunOf (k + 1) := by
  have hidx : r.scanSame.idx.toNat = r.idx.toNat + 1 := index_succ_toNat hi
  have hfits := h.fits
  refine ⟨by omega, hk, by omega, ?_, fun j hj hjk => ?_, fun hle => ?_⟩
  · rw [scanSame_acc, scanSame_t, BitVec.toNat_add, zextDelay_toNat, h.acc_eq, ← Nat.succ_mul,
      Nat.mod_eq_of_lt (mul_toNat_lt_delay hk _)]
  · rw [hidx] at hj hjk
    rcases Nat.le_succ_iff.1 hj with hj | rfl
    · exact h.same j hj (by omega)
    · exact hs
  · rw [hidx] at hle ⊢
    rw [Nat.add_sub_add_right]
    exact h.maximal (by omega)

/-- Starting the next run with the bit scanned, of the other level (rule R86). -/
theorem Block.RunOf.scanChange (h : r.RunOf k) (hi : r.idx.toNat ≤ 8) (hs : r.scannedBit ≠ r.level) :
    r.scanChange.RunOf 1 := by
  have hidx : r.scanChange.idx.toNat = r.idx.toNat + 1 := index_succ_toNat hi
  refine ⟨le_rfl, by omega, by omega, ?_, fun j hj hjk => ?_, fun _ => ?_⟩
  · rw [scanChange_acc, scanChange_t, zextDelay_toNat, Nat.one_mul]
  · obtain rfl : j = r.idx.toNat + 1 := by omega
    exact Bool.eq_not_of_ne hs
  · rw [hidx, Nat.add_sub_cancel]
    exact h.framePos_idx.trans_ne (Bool.not_ne_self r.level).symm

/-- The run an accepted command starts is the start bit (rule R84). -/
theorem Block.RunOf.startFrame (b : Byte) (t : BitTime wT) (r : Block wT) : (r.startFrame b t).RunOf 1 := by
  have hidx : (r.startFrame b t).idx.toNat = 0 := rfl
  refine ⟨le_rfl, by omega, by omega, ?_, fun j hj _ => ?_, fun hle => ?_⟩
  · rw [startFrame_acc, startFrame_t, zextDelay_toNat, Nat.one_mul]
  · obtain rfl : j = 0 := by omega
    rfl
  · omega

/-! ## The invariants, action by action (rule R29) -/

/-- A block that is not busy meets the invariants: all but I7 speak of a busy block, and I7 asks for nothing else. -/
theorem Block.inv_of_not_busy (h : r.busy = false) : r.Inv := by
  constructor <;> simp [h]

/-- The invariants of a busy block. -/
theorem Block.inv_of_runOf (hf : r.fault = false) (hi : r.idx.toNat ≤ 9) (ht : r.t ≠ 0#wT)
    (hstop : r.frame.getLsbD 8 = true) (hrun : r.RunOf k) : r.Inv :=
  ⟨fun _ => hf, fun _ => hi, fun _ => ht, fun _ => hstop, fun _ => ⟨k, hrun⟩, by simp [hf]⟩

/-- A transfer touches nothing the invariants speak of (rule R111). -/
theorem Block.Inv.afterXfer (h : r.Inv) (inp : Inputs wT) : (r.afterXfer inp).Inv := by
  rw [Block.afterXfer_eq]
  exact ⟨h.i1, h.i2_idx, h.i2_t, h.stop,
    fun hb => (h.i3_i4 hb).imp fun _ q => ⟨q.pos, q.le_nine, q.fits, q.acc_eq, q.same, q.maximal⟩, h.i7⟩

/-- An advance step keeps the invariants (rules R85 to R87). -/
theorem Block.Inv.advance (h : r.Inv) (ha : r.adv = true) (hr : r.advance = .next r') : r'.Inv := by
  obtain ⟨hb, hf, -⟩ := Block.adv_iff.1 ha
  obtain ⟨k, hrun⟩ := h.i3_i4 hb
  rcases Block.advance_cases hr with ⟨hi, hs, rfl⟩ | ⟨hi, hs, rfl⟩ | ⟨-, rfl⟩
  · have hidx : r.scanSame.idx.toNat = r.idx.toNat + 1 := index_succ_toNat hi
    have hk := hrun.lt_nine hi (h.stop hb) hs
    exact Block.inv_of_runOf hf (by omega) (h.i2_t hb) (h.stop hb) (hrun.scanSame hi hk hs)
  · have hidx : r.scanChange.idx.toNat = r.idx.toNat + 1 := index_succ_toNat hi
    exact Block.inv_of_runOf hf (by omega) (h.i2_t hb) (h.stop hb) (hrun.scanChange hi hs)
  · exact Block.inv_of_not_busy rfl

/-- An acceptance by a ready block establishes the invariants (rules R84, R130). -/
theorem Block.inv_accept (hready : r.inReady = true) (b : Byte) (t : BitTime wT) : (r.accept b t).Inv := by
  obtain ⟨hb, hf⟩ := Block.inReady_iff.1 hready
  rcases Block.accept_cases (r := r) b t with ⟨-, e⟩ | ⟨ht, e⟩ <;> rw [e]
  · exact Block.inv_of_not_busy hb
  · exact Block.inv_of_runOf hf (Nat.zero_le 9) ht (by simp [frameWord_bit])
      (Block.RunOf.startFrame b t r)

/-- The registers after a step with `rst = 0` meet the invariants. -/
theorem Block.Inv.moved (h : r.Inv) (inp : Inputs wT) : (r.moved inp).Inv := by
  rcases Bool.eq_false_or_eq_true r.adv with ha | ha
  · obtain ⟨r', hr⟩ := Block.advance_answers (h.i2_idx (Block.adv_iff.1 ha).1)
    rw [Block.moved_of_advance ha hr]
    exact h.advance ha hr
  · rw [Block.moved_of_not_adv ha]
    split
    · next hacc =>
      have hready : r.inReady = true := (Bool.and_eq_true_iff.1 hacc).2
      exact Block.inv_accept (by simpa using hready) _ _
    · exact h.afterXfer inp

/-- The registers after any step meet the invariants; after a reset step, for want of BUSY (rule R150). -/
theorem Block.Inv.registerTransfer (h : r.Inv) (inp : Inputs wT) (n : Nat) : (r.registerTransfer inp n).Inv := by
  unfold Block.registerTransfer
  split
  · exact Block.inv_of_not_busy rfl
  · exact h.moved inp

/-- No step of a block that meets the invariants is the one without a rule (I2; U10). -/
theorem Block.Inv.noRule (h : r.Inv) (inp : Inputs wT) : r.noRule inp = false := by
  by_contra hno
  simp only [Block.noRule, Bool.not_eq_false, Bool.and_eq_true, decide_eq_true_eq] at hno
  obtain ⟨⟨-, ha⟩, hi⟩ := hno
  have := h.i2_idx (Block.adv_iff.1 ha).1
  omega

/-! ## The environment of a step (rules R8, R20, R69) -/

/-- A transfer leaves the environment alone (rule R111). -/
@[simp] theorem Mach.transferIf_script (c : Bool) (m : Mach wT) : (m.transferIf c).script = m.script := by
  cases c <;> rfl

@[simp] theorem Mach.transferIf_program (c : Bool) (m : Mach wT) : (m.transferIf c).program = m.program := by
  cases c <;> rfl

@[simp] theorem Mach.transferIf_stepNo (c : Bool) (m : Mach wT) : (m.transferIf c).stepNo = m.stepNo := by
  cases c <;> rfl

/-- Every step keeps the width, and the block's actions leave the environment where `moveOn` put it. -/
theorem step_environment {m : Mach wT} {s' : State} (h : step ⟨wT, m⟩ = .next s') :
    ∃ m' : Mach wT, s' = ⟨wT, m'⟩ ∧ m'.script = m.moveOn.script ∧ m'.program = m.moveOn.program ∧
      m'.stepNo = m.moveOn.stepNo := by
  rcases step_cases h with ⟨-, rfl⟩ | ⟨-, -, r, -, rfl⟩ | ⟨-, -, rfl⟩
  · exact ⟨_, rfl, rfl, rfl, rfl⟩
  · exact ⟨_, rfl, rfl, rfl, rfl⟩
  · refine ⟨_, rfl, ?_⟩
    split <;> simp

end

/-! ## The obligations -/

/-- Settles O34: the register transfer does one of the shared actions, and each of them keeps the invariants. -/
theorem invKeptAtEveryWidth : Obligations.InvKeptAtEveryWidth :=
  fun _ _ inp n h => ⟨h.registerTransfer inp n, h.noRule inp⟩

/-- Settles O14: the environment moves on as `Mach.moveOn` says, and the block's actions leave it alone. -/
theorem stepMovesEnvironmentOn : Obligations.StepMovesEnvironmentOn := by
  intro wT m s' h
  obtain ⟨m', rfl, hscript, hprogram, hstepNo⟩ := step_environment h
  refine ⟨m', rfl, hscript, fun hs => ?_, fun hs => ?_, hstepNo⟩
  · simp [hprogram, hs]
  · simp [hprogram, hs]

/-- Settles O32: after a reset BUSY = 0, and a block that is not busy meets the invariants. -/
theorem invHoldsAfterReset : Obligations.InvHoldsAfterReset := by
  have hreset : ∀ wT : Nat, Config.widthOk wT → (State.resetAt wT).Inv :=
    fun _ hw => ⟨hw, Block.inv_of_not_busy rfl⟩
  refine ⟨hreset Config.refWT (by decide), hreset, ?_⟩
  rintro ⟨wT, m⟩ s' hw hrst h
  rw [step_reset hrst] at h
  cases h
  exact ⟨hw, Block.inv_of_not_busy rfl⟩

end Sys2Proof.Machine
end

section
/-! PROOFS. The state family (10_state.md): what `exec` of a command does to the machine, and rule R30's two readings.

`exec` is first written as one equation for every instruction that fits the width; `step` is then shown to be the
register transfer of rule R30, and what is true of acceptance is read off the register transfer. -/

namespace Sys2Proof.Machine

section
variable {wT : Nat} {r : Block wT} {inp : Inputs wT} {m m' : Mach wT} {i : Instr}

/-! ## Commands (rules R22, R84, R130, R132) -/

/-- A block that is busy or has faulted is not ready (rules R22, R132). -/
theorem Block.inReady_eq_false_iff : r.inReady = false ↔ r.busy = true ∨ r.fault = true := by
  simp only [Block.inReady, Bool.and_eq_false_iff, Bool.not_eq_false']

/-- What acceptance of an instruction does to the registers (rules R84, R130); `exec_of_fits` ties it to `exec`. -/
def acceptInstr (wT : Nat) : Instr → Block wT → Block wT
  | .illegal _ => Block.raiseBadBitTime
  | .encode b t => Block.accept b (BitVec.ofNat wT t)

/-- An instruction that fits the width always answers next: where the block is ready it is accepted (rules R22, R30). -/
theorem exec_of_fits (h : i.fits wT = true) (m : Mach wT) :
    exec i ⟨wT, m⟩ = .next ⟨wT, if m.block.inReady then m.onBlock (acceptInstr wT i) else m⟩ := by
  cases i with
  | illegal b => exact exec_illegal b m
  | encode b t => exact exec_encode b m (of_decide_eq_true h)

/-- Acceptance does not touch OUTV (rules R84, R130). -/
@[simp] theorem Block.accept_outv (b : Byte) (t : BitTime wT) : (r.accept b t).outv = r.outv := by
  rcases Block.accept_cases (r := r) b t with ⟨-, e⟩ | ⟨-, e⟩ <;> rw [e] <;> rfl

/-- Acceptance does not touch OUTD (rules R84, R130). -/
@[simp] theorem Block.accept_outd (b : Byte) (t : BitTime wT) : (r.accept b t).outd = r.outd := by
  rcases Block.accept_cases (r := r) b t with ⟨-, e⟩ | ⟨-, e⟩ <;> rw [e] <;> rfl

/-- Acceptance of an instruction does not touch the output register. -/
theorem acceptInstr_output (i : Instr) (r : Block wT) :
    (acceptInstr wT i r).outv = r.outv ∧ (acceptInstr wT i r).outd = r.outd := by
  cases i with
  | illegal b => exact ⟨rfl, rfl⟩
  | encode b t => exact ⟨r.accept_outv b _, r.accept_outd b _⟩

/-- A bit time other than 0 that fits the width is not 0 in the register T (rule R62). -/
theorem ofNat_bitTime_ne_zero {t : Nat} (ht : t < 2 ^ wT) (h0 : t ≠ 0) : BitVec.ofNat wT t ≠ 0#wT := by
  intro h
  have := congrArg BitVec.toNat h
  simp only [BitVec.toNat_ofNat, Nat.zero_mod, Nat.mod_eq_of_lt ht] at this
  exact h0 this

/-- Acceptance with `t != 0` leaves FAULT as it is (rule R84). -/
theorem acceptInstr_encode_fault {b : Byte} {t : Nat} (ht : t < 2 ^ wT) (h0 : t ≠ 0) (r : Block wT) :
    (acceptInstr wT (.encode b t) r).fault = r.fault := by
  rw [acceptInstr, Block.accept_of_ne (ofNat_bitTime_ne_zero ht h0), Block.startFrame_fault]

/-- The word on the ports, from its two fields as numbers (rules R60, R67). -/
theorem Inputs.ofNat_fields (inp : Inputs wT) :
    BitVec.ofNat (wT + 8) (inp.inT.toNat * 256 + inp.inByte.toNat) = inp.word := by
  rw [← commandWord_toNat, BitVec.ofNat_toNat, BitVec.setWidth_eq]
  rfl

/-- A step in which a ready block is offered a command runs it, after the step's transfer (rules R30, R63). -/
theorem step_offered (hrst : m.inputs.rst = false) (hvalid : m.inputs.inValid = true)
    (hready : m.block.inReady = true) :
    step ⟨wT, m⟩ =
      exec (decode m.inputs.word) ⟨wT, m.moveOn.transferIf (m.block.xfer m.inputs)⟩ := by
  have hadv : m.block.adv = false := by simp [Block.adv, (Block.inReady_iff.1 hready).1]
  simp [step, cycle, Mach.act, Mach.takeCommand, hrst, hvalid, hadv]

/-! ## The step is the register transfer (rule R30) -/

/-- What a step's transfer appends to the stream (rule R111). -/
@[simp] theorem Mach.transferIf_stream (c : Bool) (m : Mach wT) :
    (m.transferIf c).stream = m.stream ++ if c then [m.block.outd] else [] := by
  cases c <;> simp

/-- A transfer leaves the earlier segments alone (rules R111, R151). -/
@[simp] theorem Mach.transferIf_segments (c : Bool) (m : Mach wT) : (m.transferIf c).segments = m.segments := by
  cases c <;> rfl

/-- After a step that answers next the registers hold what the register transfer writes. -/
theorem step_registerTransfer (h : step ⟨wT, m⟩ = .next ⟨wT, m'⟩) :
    m'.block = m.block.registerTransfer m.inputs m.stepNo := by
  rcases step_cases h with ⟨hr, e⟩ | ⟨hr, ha, r, hadv, e⟩ | ⟨hr, ha, e⟩ <;> cases e
  · simp [Block.registerTransfer, hr]
  · simp [Block.registerTransfer, hr, Block.moved_of_advance ha hadv]
  · have hx : (m.moveOn.transferIf (m.block.xfer m.inputs)).block = m.block.afterXfer m.inputs :=
      m.moveOn.transferIf_xfer_block m.inputs
    simp only [Block.registerTransfer, hr, Block.moved_of_not_adv ha]
    cases m.block.accepts m.inputs <;> simp [hx]

/-- After a step that answers next the stream has grown by the delay transferred, or is empty after a reset (rules R111,
R150), and the segments have grown by the old stream in a reset step only (rule R151). -/
theorem step_streams (h : step ⟨wT, m⟩ = .next ⟨wT, m'⟩) :
    m'.stream = (if m.inputs.rst then [] else m.stream ++ m.block.received m.inputs) ∧
      m'.segments = m.segments ++ (if m.inputs.rst then [m.stream] else []) := by
  rcases step_cases h with ⟨hr, e⟩ | ⟨hr, ha, r, hadv, e⟩ | ⟨hr, ha, e⟩ <;> cases e
  · simp [hr]
  · simp [Block.received, hr, Block.not_xfer_of_adv ha]
  · cases m.block.accepts m.inputs <;> simp [Block.received, hr]

/-- Every step that has a rule answers next (U10). -/
theorem step_answers (h : m.block.noRule m.inputs = false) : ∃ m' : Mach wT, step ⟨wT, m⟩ = .next ⟨wT, m'⟩ := by
  rcases Bool.eq_false_or_eq_true m.inputs.rst with hr | hr
  · exact ⟨_, step_reset hr⟩
  · rcases Bool.eq_false_or_eq_true m.block.adv with ha | ha
    · have hidx : m.block.idx.toNat ≤ 9 := by simpa [Block.noRule, hr, ha] using h
      obtain ⟨r, hadv⟩ := Block.advance_answers hidx
      exact ⟨_, by rw [step_advance hr ha, hadv, mapNext_next]⟩
    · exact ⟨_, step_command hr ha⟩

/-- A step without a guard writes no register (rule R30). -/
theorem Block.moved_of_no_guard (ha : r.adv = false) (hx : r.xfer inp = false) (hacc : r.accepts inp = false) :
    r.moved inp = r := by
  simp [Block.moved_of_not_adv ha, hacc, Block.afterXfer, hx]

/-! ## Acceptance, seen on BUSY and FAULT (rules R22, R33) -/

/-- An acceptance is one with `t != 0` or one with `t == 0` (rule R84). -/
theorem Block.accepts_iff_due : r.accepts inp = true ↔ r.startDue inp = true ∨ r.badDue inp = true := by
  by_cases ht : inp.inT = 0#wT <;> simp [Block.startDue, Block.badDue, ht]

/-- Only a ready block accepts (rule R22). -/
theorem Block.ready_of_accepts (h : r.accepts inp = true) : r.busy = false ∧ r.fault = false :=
  Block.inReady_iff.1 (Bool.and_eq_true_iff.1 h).2

/-- BUSY rises exactly on acceptance with `t != 0` (rule R33). -/
theorem Block.busy_rises_iff : r.busy = false ∧ (r.moved inp).busy = true ↔ r.startDue inp = true := by
  constructor
  · rintro ⟨hb, hb'⟩
    by_contra hs
    simp [Block.moved, hs, hb] at hb'
  · intro hs
    exact ⟨(Block.ready_of_accepts (Block.accepts_iff_due.2 (.inl hs))).1, by simp [Block.moved, hs]⟩

/-- FAULT rises exactly on acceptance with `t == 0` (rules R33, R130). -/
theorem Block.fault_rises_iff : r.fault = false ∧ (r.moved inp).fault = true ↔ r.badDue inp = true := by
  constructor
  · rintro ⟨hf, hf'⟩
    by_contra hs
    simp [Block.moved, hs, hf] at hf'
  · intro hs
    exact ⟨(Block.ready_of_accepts (Block.accepts_iff_due.2 (.inr hs))).2, by simp [Block.moved, hs]⟩

/-- BUSY or FAULT rises exactly where a command is accepted and the step is no reset (rules R22, R136). -/
theorem Block.rises_iff_accepts (n : Nat) :
    (r.busy = false ∧ (r.registerTransfer inp n).busy = true ∨
      r.fault = false ∧ (r.registerTransfer inp n).fault = true) ↔ r.accepts inp = true ∧ inp.rst = false := by
  cases hr : inp.rst
  · simp only [Block.registerTransfer, hr, Bool.false_eq_true, if_false, and_true]
    rw [Block.busy_rises_iff, Block.fault_rises_iff, Block.accepts_iff_due]
  · simp [Block.registerTransfer, hr]

end

/-! ## The obligations -/

/-- Settles O11: acceptance leaves OUTV and OUTD alone, and nothing outside the block is written. -/
theorem commandsLeaveOutputAlone : Obligations.CommandsLeaveOutputAlone := by
  intro i wT m hfits
  refine ⟨_, exec_of_fits hfits m, ?_⟩
  cases m.block.inReady
  · simp
  · obtain ⟨houtv, houtd⟩ := acceptInstr_output i m.block
    refine ⟨houtv, houtd, rfl, rfl, rfl, rfl, rfl, ?_, ?_⟩
    · rintro b rfl
      exact ⟨rfl, rfl, rfl, rfl, rfl, rfl⟩
    · rintro b t rfl h0
      exact acceptInstr_encode_fault (of_decide_eq_true hfits) h0 m.block

/-- Settles O28: the step is the register transfer, in which BUSY or FAULT rises exactly on acceptance. -/
theorem acceptedExactlyWhenReady : Obligations.AcceptedExactlyWhenReady := by
  intro wT m m' h
  refine ⟨Block.inReady_iff, ?_⟩
  rw [step_registerTransfer h, Block.rises_iff_accepts]
  simp [Block.accepts, Mach.outputs, Block.outputs, and_assoc]

/-- Settles O31: action by action, `step` writes what the register transfer writes. -/
theorem stepIsSimultaneousTransfer : Obligations.StepIsSimultaneousTransfer := by
  intro wT m
  refine ⟨fun ha => ⟨Block.not_xfer_of_adv ha, Block.not_accepts_of_adv ha⟩, fun hr ha hx hacc => ?_, fun hrule => ?_⟩
  · have h := step_command hr ha
    refine ⟨_, h, ?_⟩
    rw [step_registerTransfer h, Block.registerTransfer, hr, if_neg Bool.false_ne_true,
      Block.moved_of_no_guard ha hx hacc]
  · obtain ⟨m', h⟩ := step_answers hrule
    obtain ⟨hstream, hsegments⟩ := step_streams h
    obtain ⟨_, e, -, -, hstepNo⟩ := step_environment h
    cases e
    exact ⟨m', h, step_registerTransfer h, hstream, hsegments, hstepNo⟩

/-- Settles O10: an offered command is accepted only where `in_ready = 1`. -/
theorem commandWaitsUnlessReady : Obligations.CommandWaitsUnlessReady := by
  rintro i ⟨wT, m⟩ hfits hbusy
  rw [exec_of_fits hfits, Block.inReady_eq_false_iff.2 hbusy]
  rfl

/-- Settles O13: the bits given are the word on the ports, which the step decodes and runs. -/
theorem stepRunsOfferedCommand : Obligations.StepRunsOfferedCommand := by
  intro wT m i hrst hvalid hbusy hfault hi
  obtain ⟨-, -, rfl⟩ := decodeBits_eq_ok.1 hi
  rw [Inputs.ofNat_fields, step_offered hrst hvalid (Block.inReady_iff.2 ⟨hbusy, hfault⟩)]
  rfl

/-- Settles O29: each port is its register by definition, and `out_delay` is OUTD where OUTV selects it. -/
theorem portsShowRegisters : Obligations.PortsShowRegisters :=
  fun _ _ => ⟨rfl, rfl, rfl, fun hvalid => if_pos hvalid⟩

end Sys2Proof.Machine
end

section
/-! PROOFS. The memory family (20_memory.md): the output stream as the one thing the machine writes outside its
registers.

What a block owes is first said action by action: an advance step moves a delay from "still to emit" to the output
register, a transfer moves it to the consumer, and an acceptance adds the encoding of its command. So a step conserves
the stream and what is owed, and the statement about runs is an induction over the steps. -/

namespace Sys2Proof.Machine

section
variable {wT : Nat} {r r' : Block wT} {inp : Inputs wT} {m m' : Mach wT} {s s' t : State} {k : Nat}
  {cmds : List (Byte × Nat)}

/-! ## The bits still to scan (rules R82, R98) -/

/-- While IDX is at most 8 the next bit to scan is `FRAME[IDX]` (rules R85, R86). -/
theorem Block.bitsLeft_of_le (h : r.idx.toNat ≤ 8) :
    r.bitsLeft = r.scannedBit :: (scanOrder r.frame).drop (r.idx.toNat + 1) := by
  have hlen : r.idx.toNat < (scanOrder r.frame).length := by
    simp only [scanOrder, Config.scannedBits, List.length_map, List.length_range]
    omega
  rw [Block.bitsLeft, List.drop_eq_getElem_cons hlen]
  simp [scanOrder, Block.scannedBit]

/-- At IDX = 9 every bit has been scanned (rule R27). -/
theorem Block.bitsLeft_of_nine (h : r.idx.toNat = 9) : r.bitsLeft = [] := by
  simp [Block.bitsLeft, scanOrder, Config.scannedBits, h]

/-! ## What is still to emit, action by action (rules R82, R84 to R87) -/

/-- A block that is not busy has nothing to emit. -/
theorem Block.toEmit_of_not_busy (h : r.busy = false) : r.toEmit = [] := by
  simp [Block.toEmit, h]

/-- A scan step of the same level emits nothing, so nothing less is still to emit (rule R85); ACC must not wrap. -/
theorem Block.toEmit_scanSame (hi : r.idx.toNat ≤ 8) (hs : r.scannedBit = r.level)
    (hacc : r.scanSame.acc.toNat = r.acc.toNat + r.t.toNat) : r.scanSame.toEmit = r.toEmit := by
  have hleft : r.scanSame.bitsLeft = (scanOrder r.frame).drop (r.idx.toNat + 1) := by
    rw [Block.bitsLeft, scanSame_idx, index_succ_toNat hi, scanSame_frame]
  simp only [Block.toEmit, hacc, hleft, Block.bitsLeft_of_le hi, scan, if_pos hs]
  rfl

/-- A scan step that changes the level emits ACC (rule R86). -/
theorem Block.toEmit_scanChange (hb : r.busy = true) (hi : r.idx.toNat ≤ 8) (hs : r.scannedBit ≠ r.level) :
    r.toEmit = r.acc.toNat :: r.scanChange.toEmit := by
  have hleft : r.scanChange.bitsLeft = (scanOrder r.frame).drop (r.idx.toNat + 1) := by
    rw [Block.bitsLeft, scanChange_idx, index_succ_toNat hi, scanChange_frame]
  simp [Block.toEmit, hleft, Block.bitsLeft_of_le hi, scan, hs, hb]

/-- With the final push due, ACC alone is still to emit (rule R87). -/
theorem Block.toEmit_of_nine (hb : r.busy = true) (hi : r.idx.toNat = 9) : r.toEmit = [r.acc.toNat] := by
  simp [Block.toEmit, Block.bitsLeft_of_nine hi, scan, hb]

/-- An accepted command has its whole encoding to emit (rules R82, R84). -/
theorem Block.toEmit_startFrame (b : Byte) {t : BitTime wT} (ht : t ≠ 0#wT) :
    (r.startFrame b t).toEmit = encodeByte b t.toNat := by
  have hnat : t.toNat ≠ 0 := fun h => ht (BitVec.eq_of_toNat_eq (by simpa using h))
  simp [Block.toEmit, Block.bitsLeft, encodeByte, hnat, Config.startBit]

/-! ## What is owed, action by action (rules R110 to R113) -/

/-- With an empty output register, what is owed is what is still to emit. -/
theorem Block.owed_of_outv_false (h : r.outv = false) : r.owed = r.toEmit := by
  simp [Block.owed, h]

/-- With a full one, OUTD is owed first. -/
theorem Block.owed_of_outv (h : r.outv = true) : r.owed = r.outd.toNat :: r.toEmit := by
  simp [Block.owed, h]

/-- An idle block owes nothing (rule R119). -/
theorem Block.owed_of_idle (h : r.idle = true) : r.owed = [] := by
  obtain ⟨hb, hv⟩ : r.busy = false ∧ r.outv = false := by simpa [Block.idle] using h
  rw [Block.owed_of_outv_false hv, Block.toEmit_of_not_busy hb]

/-- A run of ACC extended by the bit scanned does not wrap (rules R85, R92). -/
theorem Block.Inv.scanSame_acc_toNat (h : r.Inv) (hb : r.busy = true) (hi : r.idx.toNat ≤ 8)
    (hs : r.scannedBit = r.level) : r.scanSame.acc.toNat = r.acc.toNat + r.t.toNat := by
  obtain ⟨k, hrun⟩ := h.i3_i4 hb
  have hk := hrun.lt_nine hi (h.stop hb) hs
  rw [(hrun.scanSame hi hk hs).acc_eq, hrun.acc_eq, Block.scanSame_t, Nat.succ_mul]

/-- An advance step moves delays from the scan to the output register, and owes the same (rules R85 to R87, R110). -/
theorem Block.Inv.owed_advance (h : r.Inv) (ha : r.adv = true) (hr : r.advance = .next r') : r'.owed = r.owed := by
  obtain ⟨hb, -, hv⟩ := Block.adv_iff.1 ha
  rw [Block.owed_of_outv_false hv]
  rcases Block.advance_cases hr with ⟨hi, hs, rfl⟩ | ⟨hi, hs, rfl⟩ | ⟨hi, rfl⟩
  · rw [Block.owed_of_outv_false (r := r.scanSame) hv,
      Block.toEmit_scanSame hi hs (h.scanSame_acc_toNat hb hi hs)]
  · rw [Block.owed_of_outv (scanChange_outv r), scanChange_outd, Block.toEmit_scanChange hb hi hs]
  · rw [Block.owed_of_outv (finalPush_outv r), finalPush_outd,
      Block.toEmit_of_not_busy (finalPush_busy r), Block.toEmit_of_nine hb hi]

/-- A transfer moves the delay owed first to the consumer (rule R111). -/
theorem Block.received_owed_afterXfer (hrst : inp.rst = false) :
    (r.received inp).map BitVec.toNat ++ (r.afterXfer inp).owed = r.owed := by
  rcases Bool.eq_false_or_eq_true (r.xfer inp) with hx | hx
  · have hv : r.outv = true := (Bool.and_eq_true_iff.1 hx).1
    have howed : r.clearOutv.owed = r.toEmit := Block.owed_of_outv_false (clearOutv_outv r)
    simp [Block.received, Block.afterXfer, hrst, hx, Block.owed_of_outv hv, howed]
  · simp [Block.received, Block.afterXfer, hx]

/-- Acceptance by a ready block adds the encoding of its command to what is owed, which is nothing where `t == 0` (rules
R84, R113, R130). -/
theorem Block.owed_accept (hready : r.inReady = true) (b : Byte) (t : BitTime wT) :
    (r.accept b t).owed = r.owed ++ encodeByte b t.toNat := by
  have hb := (Block.inReady_iff.1 hready).1
  rcases Block.accept_cases (r := r) b t with ⟨rfl, e⟩ | ⟨ht, e⟩ <;> rw [e]
  · have hnone : encodeByte b (0#wT).toNat = [] := by simp [encodeByte]
    rw [hnone, List.append_nil]
    rfl
  · rw [Block.owed, Block.toEmit_startFrame b ht, Block.owed, Block.toEmit_of_not_busy hb, List.append_nil]
    rfl

/-! ## A step conserves the stream and what is owed (rules R98, R112, R113) -/

/-- Commands in two parts. -/
@[simp] theorem encodeAll_append (c d : List (Byte × Nat)) : encodeAll (c ++ d) = encodeAll c ++ encodeAll d :=
  List.flatMap_append

/-- A command with `t == 0` has no encoding, so the command accepted need not be asked for `t != 0` (rule R90). -/
theorem Block.encodeAll_started (hrst : inp.rst = false) :
    encodeAll (r.started inp) = if r.accepts inp then encodeByte inp.inByte inp.inT.toNat else [] := by
  by_cases ht : inp.inT = 0#wT <;> cases hacc : r.accepts inp <;>
    simp [Block.started, Block.startDue, encodeAll, encodeByte, hrst, hacc, ht]

/-- What the consumer receives in a step without a reset, followed by what is owed after it, is what was owed before,
followed by the encoding of the command accepted. -/
theorem Block.Inv.received_owed_moved (h : r.Inv) (hrst : inp.rst = false) :
    (r.received inp).map BitVec.toNat ++ (r.moved inp).owed = r.owed ++ encodeAll (r.started inp) := by
  rw [Block.encodeAll_started hrst]
  rcases Bool.eq_false_or_eq_true r.adv with ha | ha
  · obtain ⟨r', hr⟩ := Block.advance_answers (h.i2_idx (Block.adv_iff.1 ha).1)
    rw [Block.moved_of_advance ha hr, h.owed_advance ha hr]
    simp [Block.received, Block.not_xfer_of_adv ha, Block.not_accepts_of_adv ha]
  · rw [Block.moved_of_not_adv ha, ← Block.received_owed_afterXfer (r := r) hrst]
    split
    · next hacc =>
      have hready : r.inReady = true := (Bool.and_eq_true_iff.1 hacc).2
      rw [Block.owed_accept (by simpa using hready), List.append_assoc]
    · rw [List.append_nil]

/-- A step keeps the block's invariants (rule R29). -/
theorem step_keeps_block_inv (h : s.mach.block.Inv) (hstep : step s = .next s') : s'.mach.block.Inv := by
  obtain ⟨wT, m⟩ := s
  obtain ⟨m', rfl, -⟩ := step_environment hstep
  rw [step_registerTransfer hstep]
  exact h.registerTransfer m.inputs m.stepNo

/-- What the stream tracks grows by the command accepted in the step. -/
theorem State.Tracks.step (h : s.Tracks cmds) (hinv : s.mach.block.Inv) (hrst : s.mach.inputs.rst = false)
    (hstep : step s = .next s') : s'.Tracks (cmds ++ s.mach.block.started s.mach.inputs) := by
  obtain ⟨wT, m⟩ := s
  obtain ⟨m', rfl, -⟩ := step_environment hstep
  have hblock : m'.block = m.block.moved m.inputs := by
    rw [step_registerTransfer hstep, Block.registerTransfer, hrst, if_neg Bool.false_ne_true]
  have hstream : m'.stream = m.stream ++ m.block.received m.inputs := by
    rw [(step_streams hstep).1, hrst, if_neg Bool.false_ne_true]
  unfold State.Tracks at h ⊢
  rw [hblock, hstream, List.map_append, List.append_assoc, hinv.received_owed_moved hrst, ← List.append_assoc, h,
    encodeAll_append]

/-- An idle block owes nothing, so that the stream alone is what is tracked (rule R119). -/
theorem State.Tracks.stream_of_idle (h : s.Tracks cmds) (hidle : s.mach.block.idle = true) :
    s.mach.stream.map BitVec.toNat = encodeAll cmds := by
  rw [← h, Block.owed_of_idle hidle, List.append_nil]

/-! ## Runs, step by step -/

/-- A run of `k + 1` steps that answers next is a step that does, and a run of `k` steps from there. -/
theorem run_succ_eq_next : core.run (k + 1) s = .next s' ↔ ∃ t, step s = .next t ∧ core.run k t = .next s' := by
  cases h : step s <;> simp [Host.Core.run, core, h]

/-- A run without a reset begins with a step without one. -/
theorem State.resetFree_succ (h : step s = .next t) :
    s.resetFree (k + 1) = true ↔ s.mach.inputs.rst = false ∧ t.resetFree k = true := by
  simp [State.resetFree, h]

/-- The commands of a run are that of its first step and those of the rest. -/
theorem State.acceptedIn_succ (h : step s = .next t) :
    s.acceptedIn (k + 1) = s.mach.block.started s.mach.inputs ++ t.acceptedIn k := by
  simp [State.acceptedIn, h]

/-- Over a run without a reset, what the stream tracks grows by the commands accepted in it (rule R113). -/
theorem State.Tracks.run (k : Nat) : ∀ {s s' : State} {cmds : List (Byte × Nat)}, s.Tracks cmds →
    s.mach.block.Inv → s.resetFree k = true → core.run k s = .next s' → s'.Tracks (cmds ++ s.acceptedIn k) := by
  induction k with
  | zero =>
    intro s s' cmds h _ _ hrun
    cases hrun
    simpa [State.acceptedIn] using h
  | succ k ih =>
    intro s s' cmds h hinv hfree hrun
    obtain ⟨t, hstep, hrest⟩ := run_succ_eq_next.1 hrun
    obtain ⟨hrst, hfree'⟩ := (State.resetFree_succ hstep).1 hfree
    rw [State.acceptedIn_succ hstep, ← List.append_assoc]
    exact ih (h.step hinv hrst hstep) (step_keeps_block_inv hinv hstep) hfree' hrest

end

/-! ## The obligation -/

/-- Settles O48: an idle block with an empty stream tracks no command and meets the invariants, every step keeps the
stream tracked, and an idle block owes nothing. -/
theorem streamIsConcatenation : Obligations.StreamIsConcatenation := by
  intro k s s' hidle hstream hfree hrun
  have hnone : s.Tracks [] := by rw [State.Tracks, hstream, Block.owed_of_idle hidle]; rfl
  have hbusy : s.mach.block.busy = false := by simpa using (Bool.and_eq_true_iff.1 hidle).1
  have htracks : s'.Tracks (s.acceptedIn k) := hnone.run k (Block.inv_of_not_busy hbusy) hfree hrun
  exact ⟨htracks, htracks.stream_of_idle⟩

end Sys2Proof.Machine
end

section
/-! PROOFS. The encoding family (30_encoding.md): command words (rules R60 to R66), the assembler (R67, R68) and the
host that runs a program (R69).

The decoder is read off the two fields of a word, and encoder and decoder are shown to be inverse to each other; the
assembler is written as one equation for a whole source; a running program's ports and next lines are said once for
every step past step 0, and the statements about its directives follow from there. -/

namespace Sys2Proof.Machine

section
variable {wT nbits n b t : Nat} {w : CommandWord wT} {i : Instr}

/-! ## Decoder and encoder (rules R60 to R66) -/

/-- The decoder on a word given as its two fields (rule R63). -/
theorem decode_commandWord (b : Byte) (t : BitTime wT) :
    decode (commandWord b t) = if t = 0#wT then .illegal b else .encode b t.toNat := by
  simp [decode]

/-- Decoding undoes encoding: an ENCODE term is well formed only with a bit time that its word's field `t` carries. -/
theorem decode_encode (h : i.wf wT = true) : decode (encode wT i) = i := by
  cases i with
  | illegal b => rw [encode, decode_commandWord, if_pos rfl]
  | encode b t =>
    obtain ⟨hpos, hlt⟩ : 0 < t ∧ t < 2 ^ wT := by simpa [Instr.wf] using h
    rw [encode, decode_commandWord, if_neg (ofNat_bitTime_ne_zero hlt hpos.ne'), BitVec.toNat_ofNat,
      Nat.mod_eq_of_lt hlt]

/-- Encoding undoes decoding: a word is its two fields (rule R65). -/
theorem encode_decode (w : CommandWord wT) : encode wT (decode w) = w := by
  rcases decode_cases w with ⟨h, e⟩ | ⟨-, e⟩ <;> rw [e, encode]
  · rw [← h, commandWord_fields]
  · rw [BitVec.ofNat_toNat, BitVec.setWidth_eq, commandWord_fields]

/-- What is decoded is well formed (rules R62, R63). -/
theorem decode_wf (w : CommandWord wT) : (decode w).wf wT = true := by
  rcases decode_cases w with ⟨-, e⟩ | ⟨h, e⟩ <;> rw [e]
  · rfl
  · have hpos : 0 < (commandTime w).toNat := Nat.pos_of_ne_zero fun h0 => h (BitVec.eq_of_toNat_eq (by simpa using h0))
    simp [Instr.wf, hpos, (commandTime w).isLt]

/-- A word decodes to a well-formed instruction exactly if it is that instruction's encoding. -/
theorem decode_eq_iff (h : i.wf wT = true) : decode w = i ↔ w = encode wT i :=
  ⟨fun e => by rw [← e, encode_decode], fun e => by rw [e, decode_encode h]⟩

/-- Field `b` is the word modulo 256 (rule R60). -/
theorem commandByte_eq_ofNat (w : CommandWord wT) : commandByte w = BitVec.ofNat 8 (w.toNat % 256) :=
  BitVec.eq_of_toNat_eq (by rw [commandByte_toNat, BitVec.toNat_ofNat, Nat.mod_mod])

/-- Field `t` is zero exactly if no bit above bit 7 is set (rule R64). -/
theorem commandTime_eq_zero_iff : commandTime w = 0#wT ↔ w.toNat / 256 = 0 := by
  rw [← commandTime_toNat, ← BitVec.toNat_inj, BitVec.toNat_ofNat, Nat.zero_mod]

/-- The opcode table's decoder is the machine's, at the table's width. -/
theorem decodeTableWord_word (w : CommandWord 16) : decodeTableWord 24 w.toNat = some (decode w) := by
  rw [decodeTableWord, decodeBits_word w]

/-- Bits of any other number than `W_T + 8` are rejected (rule R66). -/
theorem decodeBits_of_ne (h : nbits ≠ wT + 8) (n : Nat) : decodeBits wT nbits n = .error .wrongLength :=
  if_neg h

/-- Bits that the decoder rejects are not placed (log entry 9). -/
theorem withFetchWord_of_error {e : DecodeReject} {s : State} (h : decodeBits s.wT nbits n = .error e) :
    s.withFetchWord nbits n = s := by
  rw [State.withFetchWord, State.placeWord, h]

/-! ## The assembler (rules R67, R68) -/

/-- The assembler's bounds on ENCODE's operands, as R67 writes them. -/
theorem encode_line_wf_iff : (AsmLine.encode b t).wf wT = true ↔ b ≤ 255 ∧ 1 ≤ t ∧ t ≤ 2 ^ wT - 1 := by
  have := Nat.two_pow_pos wT
  simp only [AsmLine.wf, byteInRange, bitTimeInRange, Bool.and_eq_true, decide_eq_true_eq]
  omega

/-- With operands in range the word of ENCODE is `(t << 8) | b` (rule R67). -/
theorem encodeOperands_eq (hb : b < 2 ^ 8) (ht : t < 2 ^ wT) :
    encodeOperands wT t b = BitVec.ofNat (wT + 8) (t <<< 8 ||| b) := by
  apply BitVec.eq_of_toNat_eq
  have hlt : t * 2 ^ 8 + b < 2 ^ (wT + 8) := by rw [pow_add]; omega
  rw [encodeOperands, commandWord_toNat, BitVec.toNat_ofNat, BitVec.toNat_ofNat, BitVec.toNat_ofNat,
    ← Nat.shiftLeft_add_eq_or_of_lt hb, Nat.shiftLeft_eq, Nat.mod_eq_of_lt hb, Nat.mod_eq_of_lt ht,
    Nat.mod_eq_of_lt hlt]
  rfl

/-- A source is refused exactly if one of its lines is, and else expands line by line (rules R67 to R69). -/
theorem assemble_eq (wT : Nat) (ls : List AsmLine) :
    assemble wT ls = if ls.all (AsmLine.wf wT) then some (ls.flatMap (AsmLine.expand wT)) else none := by
  induction ls with
  | nil => rfl
  | cons l ls ih =>
    rw [assemble, ih, assembleLine]
    cases hl : l.wf wT <;> cases hls : ls.all (AsmLine.wf wT) <;> simp [hl, hls]

/-- A buffer line is well formed exactly if every ENCODE line of its expansion is, which must not be empty (rule R68). -/
theorem encodeBuf_cons_wf (wT b t : Nat) (bs : List Nat) :
    (AsmLine.encodeBuf (b :: bs) t).wf wT = ((b :: bs).map (fun x => AsmLine.encode x t)).all (AsmLine.wf wT) := by
  rw [List.all_map, Bool.eq_iff_iff]
  simp only [AsmLine.wf, List.isEmpty_cons, Bool.not_false, Bool.true_and, Bool.and_eq_true, List.all_eq_true,
    Function.comp_apply]
  constructor
  · rintro ⟨hbytes, ht⟩ x hx
    exact ⟨hbytes x hx, ht⟩
  · intro h
    exact ⟨fun x hx => (h x hx).1, (h b List.mem_cons_self).2⟩

end

section
variable {wT : Nat} {m m' : Mach wT} {p : Running wT} {r : Block wT} {before ls : List (HostLine wT)}
  {w : CommandWord wT}

/-! ## A program's lines (rule R69) -/

/-- Where no RESET is reached there is none to take out. -/
theorem dropResets_of_not_reached (h : resetReached ls = false) : dropResets ls = ls := by
  induction ls with
  | nil => rfl
  | cons l ls ih =>
    cases l with
    | offer w => rfl
    | reset => cases h
    | resetAt k => rw [dropResets, ih h]

/-- Directives alone offer no command. -/
theorem nextCommand_of_directives (h : ∀ w, .offer w ∉ ls) : nextCommand ls = none := by
  simpa [nextCommand] using nextCommand_append h []

/-- In lines that are directives alone every RESET is reached. -/
theorem dropResets_of_directives (h : ∀ w, .offer w ∉ ls) : dropResets ls = ls.filter (· != .reset) := by
  simpa [dropResets] using dropResets_append h []

/-! ## A running program's ports (rule R69) -/

@[simp] theorem Running.inputs_rst (p : Running wT) (r : Block wT) (n : Nat) : (p.inputs r n).rst = p.rst r := rfl
@[simp] theorem Running.inputs_inValid (p : Running wT) (r : Block wT) (n : Nat) :
    (p.inputs r n).inValid = p.offered.isSome := rfl
@[simp] theorem Running.inputs_outReady (p : Running wT) (r : Block wT) (n : Nat) :
    (p.inputs r n).outReady = Policy.outReady p.now p.policy := rfl

/-- A command that is offered is on the ports, field by field. -/
theorem Running.inputs_of_offered (h : p.offered = some w) (r : Block wT) (n : Nat) :
    (p.inputs r n).inValid = true ∧ (p.inputs r n).inByte = commandByte w ∧ (p.inputs r n).inT = commandTime w := by
  simp [Running.inputs, h]

/-- Step 0 is the implicit reset. -/
theorem Running.rst_of_step_zero (h : p.now = 0) (r : Block wT) : p.rst r = true := by
  simp [Running.rst, h]

/-! ## A running program past step 0 (rule R69) -/

/-- A RESET is due exactly if one is reached and the block is idle. -/
theorem Running.resetDue_of_now (h : p.now ≠ 0) (r : Block wT) : p.resetDue r = (resetReached p.lines && r.idle) := by
  simp [Running.resetDue, h]

/-- `rst = 1` comes from a RESET @ line of the step, or from a RESET that is due. -/
theorem Running.rst_iff (h : p.now ≠ 0) (r : Block wT) :
    p.rst r = true ↔ .resetAt p.now ∈ p.lines ∨ resetReached p.lines = true ∧ r.idle = true := by
  simp [Running.rst, Running.resetDue_of_now h, h]

/-- An idle block takes every RESET reached. -/
theorem Running.linesLeft_of_now (h : p.now ≠ 0) (r : Block wT) :
    p.linesLeft r = (if r.idle then dropResets p.lines else p.lines).filter (HostLine.pendingAfter p.now) := by
  rw [Running.linesLeft, Running.resetDue_of_now h]
  cases hr : resetReached p.lines
  · simp [dropResets_of_not_reached hr]
  · simp

/-- The command offered is the next one. -/
theorem Running.offered_of_now (h : p.now ≠ 0) : p.offered = nextCommand p.lines := if_neg h

/-- Where no command is accepted, the program's lines are what the directives leave. -/
theorem Running.afterStep_of_not_accepted (h : p.offered = none ∨ r.inReady = false) :
    p.afterStep r = { p with lines := p.linesLeft r, now := p.now + 1 } := by
  rcases h with h | h <;> simp [Running.afterStep, h]

/-- A step moves a running program on. -/
theorem step_program (hs : m.script = []) (hp : m.program = some p) (h : step ⟨wT, m⟩ = .next ⟨wT, m'⟩) :
    m'.program = some (p.afterStep m.block) := by
  obtain ⟨_, e, -, hprogram, -⟩ := step_environment h
  cases e
  simp [hprogram, hs, hp]

/-! ## A running program with a command left (rule R69) -/

/-- The next command is offered, whatever directives stand before it. -/
theorem Running.offered_eq_some (h : p.now ≠ 0) (hb : ∀ v, .offer v ∉ before)
    (hl : p.lines = before ++ .offer w :: ls) : p.offered = some w := by
  rw [Running.offered_of_now h, hl, nextCommand_append hb]
  rfl

/-- The RESET lines reached are those before the command. -/
theorem resetReached_before_offer (hb : ∀ v, .offer v ∉ before) :
    resetReached (before ++ .offer w :: ls) = decide (.reset ∈ before) := by
  simp [resetReached_append hb, resetReached]

/-- An idle block takes the RESET lines before the command, and no other. -/
theorem Running.linesLeft_before_offer (h : p.now ≠ 0) (hb : ∀ v, .offer v ∉ before)
    (hl : p.lines = before ++ .offer w :: ls) (r : Block wT) :
    p.linesLeft r =
      ((if r.idle then before.filter (· != .reset) else before) ++ .offer w :: ls).filter
        (HostLine.pendingAfter p.now) := by
  rw [Running.linesLeft_of_now h, hl, dropResets_append hb, dropResets]
  cases r.idle <;> rfl

/-- Directives that are still to be done are directives, and the command's line is taken out after them. -/
theorem dropCommand_pending (hb : ∀ v, .offer v ∉ before) (n : Nat) :
    dropCommand ((before ++ .offer w :: ls).filter (HostLine.pendingAfter n)) =
      (before ++ ls).filter (HostLine.pendingAfter n) := by
  have hb' : ∀ v, .offer v ∉ before.filter (HostLine.pendingAfter n) := fun v hv => hb v (List.mem_of_mem_filter hv)
  rw [List.filter_append, List.filter_cons_of_pos rfl, dropCommand_append hb', List.filter_append]

/-- The step that accepts the command takes its line out, and any other step keeps it. -/
theorem Running.afterStep_before_offer (h : p.now ≠ 0) (hb : ∀ v, .offer v ∉ before)
    (hl : p.lines = before ++ .offer w :: ls) (r : Block wT) :
    p.afterStep r =
      { p with
        lines :=
          ((if r.idle then before.filter (· != .reset) else before) ++
            (if p.rst r = false ∧ r.busy = false ∧ r.fault = false then ls
            else .offer w :: ls)).filter (HostLine.pendingAfter p.now)
        now := p.now + 1 } := by
  have hleft : ∀ v, .offer v ∉ if r.idle then before.filter (· != .reset) else before := by
    intro v
    split
    · exact fun hv => hb v (List.mem_of_mem_filter hv)
    · exact hb v
  simp only [Running.afterStep, Running.offered_eq_some h hb hl, Running.linesLeft_before_offer h hb hl,
    dropCommand_pending hleft, ← Block.inReady_iff]
  cases p.rst r <;> cases r.inReady <;> rfl

/-! ## The end of a program (rule R69) -/

/-- A RESET that is due and taken out is no command. -/
theorem nextCommand_dropResets (ls : List (HostLine wT)) : nextCommand (dropResets ls) = nextCommand ls := by
  induction ls with
  | nil => rfl
  | cons l ls ih => cases l <;> simp_all [dropResets, nextCommand]

/-- The directives of a step leave the next command. -/
theorem Running.nextCommand_linesLeft (p : Running wT) (r : Block wT) :
    nextCommand (p.linesLeft r) = nextCommand p.lines := by
  rw [Running.linesLeft, nextCommand_pending]
  split
  · exact nextCommand_dropResets _
  · rfl

/-- A running program is at its end on these registers: past step 0 no reset acts, and either the block is idle with
every line done, or it has faulted with nothing offered and no RESET @ to come (rule R69; log entry 22).
`Mach.programEnded_iff` ties it to the model. -/
structure Running.AtEnd {wT : Nat} (p : Running wT) (r : Block wT) : Prop where
  now : p.now ≠ 0
  rst : p.rst r = false
  ended : p.linesLeft r = [] ∧ r.idle = true ∨ r.fault = true ∧ r.outv = false ∧ ∀ k, .resetAt k ∉ p.linesLeft r

/-- A machine's program has ended exactly if it drives the ports and is at its end on the machine's registers. -/
theorem Mach.programEnded_iff :
    m.programEnded = true ↔ ∃ p, m.script = [] ∧ m.program = some p ∧ p.AtEnd m.block := by
  unfold Mach.programEnded
  cases m.script with
  | cons i is => simp
  | nil =>
    cases m.program with
    | none => simp
    | some p =>
      simp only [Bool.and_eq_true, Bool.or_eq_true, List.all_eq_true, List.isEmpty_iff, bne_iff_ne, Bool.not_eq_true',
        Option.some.injEq, true_and, exists_eq_left']
      constructor
      · rintro ⟨⟨hnow, hrst⟩, hnil | ⟨⟨hfault, hv⟩, hall⟩⟩
        · exact ⟨hnow, hrst, .inl hnil⟩
        · exact ⟨hnow, hrst, .inr ⟨hfault, hv, fun k hk => Bool.false_ne_true (hall _ hk)⟩⟩
      · rintro ⟨hnow, hrst, hnil | ⟨hfault, hv, hat⟩⟩
        · exact ⟨⟨hnow, hrst⟩, .inl hnil⟩
        · refine ⟨⟨hnow, hrst⟩, .inr ⟨⟨hfault, hv⟩, fun l hl => ?_⟩⟩
          cases l with
          | resetAt k => exact absurd hl (hat k)
          | _ => rfl

/-- At its end a program has no command that the block takes. -/
theorem Running.AtEnd.not_accepted (h : p.AtEnd r) : p.offered = none ∨ r.inReady = false := by
  rcases h.ended with ⟨hnil, -⟩ | ⟨hfault, -⟩
  · left
    rw [Running.offered_of_now h.now, ← p.nextCommand_linesLeft r, hnil]
    rfl
  · exact .inr (Block.inReady_eq_false_iff.2 (.inr hfault))

/-- At a program's end the output register is empty. -/
theorem Running.AtEnd.outv (h : p.AtEnd r) : r.outv = false := by
  rcases h.ended with ⟨-, hidle⟩ | ⟨-, hv, -⟩
  · simpa using (Bool.and_eq_true_iff.1 hidle).2
  · exact hv

/-- At a program's end the scan does not move. -/
theorem Running.AtEnd.adv (h : p.AtEnd r) : r.adv = false := by
  rcases h.ended with ⟨-, hidle⟩ | ⟨hfault, -⟩
  · have hbusy : r.busy = false := by simpa using (Bool.and_eq_true_iff.1 hidle).1
    simp [Block.adv, hbusy]
  · simp [Block.adv, hfault]

/-- At a program's end no RESET is due. -/
theorem Running.AtEnd.resetDue (h : p.AtEnd r) : p.resetDue r = false := by
  have hrst := h.rst
  rw [Running.rst, Bool.or_eq_false_iff] at hrst
  exact hrst.2

/-- So the lines left there are all but the RESET @ lines whose step has come. -/
theorem Running.AtEnd.linesLeft (h : p.AtEnd r) : p.linesLeft r = p.lines.filter (HostLine.pendingAfter p.now) := by
  rw [Running.linesLeft, h.resetDue, if_neg Bool.false_ne_true]

/-- The lines left at a program's end name no coming step for a reset. -/
theorem Running.AtEnd.resetAt_not_mem (h : p.AtEnd r) (k : Nat) : .resetAt k ∉ p.linesLeft r := by
  rcases h.ended with ⟨hnil, -⟩ | ⟨-, -, hat⟩
  · simp [hnil]
  · exact hat k

/-- A program at its end is at its end after the next step, on the same registers. -/
theorem Running.AtEnd.afterStep (h : p.AtEnd r) : (p.afterStep r).AtEnd r := by
  rw [Running.afterStep_of_not_accepted h.not_accepted]
  have hnow : p.now + 1 ≠ 0 := Nat.succ_ne_zero _
  have hdue : Running.resetDue { p with lines := p.linesLeft r, now := p.now + 1 } r = false := by
    rw [Running.resetDue_of_now hnow, h.linesLeft, resetReached_pending, ← Running.resetDue_of_now h.now, h.resetDue]
  refine ⟨hnow, by simp [Running.rst, hdue, h.resetAt_not_mem], ?_⟩
  rw [Running.linesLeft, hdue, if_neg Bool.false_ne_true]
  rcases h.ended with ⟨hnil, hidle⟩ | ⟨hfault, hv, hat⟩
  · exact .inl ⟨by rw [hnil]; rfl, hidle⟩
  · exact .inr ⟨hfault, hv, fun k hk => hat k (List.mem_of_mem_filter hk)⟩

/-- At a program's end a step only moves the environment on. -/
theorem step_of_atEnd (hs : m.script = []) (hp : m.program = some p) (h : p.AtEnd m.block) :
    step ⟨wT, m⟩ = .next ⟨wT, m.moveOn⟩ := by
  have hin := Mach.inputs_of_program hs hp
  have hrst : m.inputs.rst = false := by rw [hin]; exact h.rst
  have hacc : m.block.accepts m.inputs = false := by
    rcases h.not_accepted with hnone | hready
    · simp [Block.accepts, hin, hnone]
    · simp [Block.accepts, hready]
  rw [step_command hrst h.adv, hacc]
  simp [Block.xfer, h.outv]

end

/-! ## The obligations -/

/-- Settles O3: encoder and decoder are inverse on well-formed instructions, and each decoder of bits reads the word. -/
theorem decodeOfEncodeIsSame : Obligations.DecodeOfEncodeIsSame := by
  refine ⟨fun wT i h => ⟨decode_encode h, ?_⟩, fun i h => ?_⟩
  · rw [decodeBits_word, decode_encode h]
  · rw [decodeTableWord_word, decode_encode h]

/-- Settles O2: the two cases of the decoder, with the fields as numbers. -/
theorem decoderSplitsOnBitTime : Obligations.DecoderSplitsOnBitTime := by
  refine ⟨fun wT w => ⟨fun h => ?_, fun h => ?_, decodeBits_word w⟩, decodeTableWord_word⟩
  · have hlt : w.toNat < 256 := by omega
    rw [decode, if_pos (commandTime_eq_zero_iff.2 h), commandByte_eq_ofNat, Nat.mod_eq_of_lt hlt]
  · rw [decode, if_neg (mt commandTime_eq_zero_iff.1 h), commandByte_eq_ofNat, commandTime_toNat]

/-- Settles O4: a word is its two fields, and the bit time decoded is not 0 and fits its field. -/
theorem encodeOfDecodeIsSame : Obligations.EncodeOfDecodeIsSame :=
  fun _ w => ⟨decode_wf w, encode_decode w⟩

/-- Settles O6: the word of ILLEGAL b is `b` as a number, and acceptance of ILLEGAL raises BadBitTime. -/
theorem illegalWordsAreOnePerByte : Obligations.IllegalWordsAreOnePerByte := by
  intro wT w b
  have hillegal : decode w = .illegal b ↔ w.toNat = b.toNat := by
    rw [decode_eq_iff rfl, ← BitVec.toNat_inj, Laws.WordLayout.illegal b wT rfl]
    simp [Laws.WordLayout.timeOf, Laws.WordLayout.byteOf]
  refine ⟨hillegal, fun m hbusy hfault hw => ?_⟩
  rw [hillegal.2 hw, exec_illegal, Block.inReady_iff.2 ⟨hbusy, hfault⟩]
  rfl

/-- Settles O56: the line is well formed exactly in R67's bounds, and its word is then `(t << 8) | b`. -/
theorem assemblerRefusesOutOfRange : Obligations.AssemblerRefusesOutOfRange := by
  intro wT b t
  refine ⟨fun h => ?_, fun h => if_neg (mt encode_line_wf_iff.1 h)⟩
  rw [assembleLine, if_pos (encode_line_wf_iff.2 h), AsmLine.expand, encodeOperands_eq (by omega) (by omega)]

/-- Settles O57: a nonempty buffer line and the ENCODE lines of its bytes are refused together and expand alike. -/
theorem bufferExpandsInOrder : Obligations.BufferExpandsInOrder := by
  intro wT t
  refine ⟨rfl, fun b bs => ?_, fun text => ?_⟩
  · rw [assemble_eq, assembleLine, encodeBuf_cons_wf]
    simp only [AsmLine.expand, List.flatMap_map]
    rw [← List.map_eq_flatMap]
  · simp [assembleLine, AsmLine.wf, AsmLine.expand, Function.comp_def]

/-- Settles O58: the ports and the next lines of a program with a command left. -/
theorem hostOffersUntilAccepted : Obligations.HostOffersUntilAccepted := by
  intro wT m p hs hp
  rw [Mach.inputs_of_program hs hp]
  refine ⟨fun h => Running.rst_of_step_zero h m.block, fun before w ls hnow hb hl => ?_⟩
  obtain ⟨hvalid, hbyte, htime⟩ :=
    Running.inputs_of_offered (Running.offered_eq_some hnow hb hl) m.block m.stepNo
  refine ⟨hvalid, hbyte, htime, ?_, fun m' h => ?_⟩
  · rw [Running.inputs_rst, Running.rst_iff hnow, hl, resetReached_before_offer hb, decide_eq_true_iff]
  · rw [step_program hs hp h, Running.afterStep_before_offer hnow hb hl]
    rfl

/-- Settles O59: the ports and the next lines of a program with no command before the RESET, or none left. -/
theorem directivesDriveReset : Obligations.DirectivesDriveReset := by
  intro wT m p hs hp hnow
  rw [Mach.inputs_of_program hs hp, Running.inputs_rst, Running.inputs_outReady, Running.inputs_inValid,
    Running.rst_iff hnow]
  refine ⟨fun before ls hb hl => ?_, .inl, fun hnone => ?_, fun hready => ?_, fun n hstall => ?_⟩
  · have hreached : resetReached p.lines = true := by simp [hl, resetReached_append hb, resetReached]
    rw [hreached, eq_self, true_and, or_comm]
  · have hoffered : p.offered = none := by rw [Running.offered_of_now hnow, nextCommand_of_directives hnone]
    refine ⟨by rw [hoffered]; rfl, fun m' h => ?_⟩
    rw [step_program hs hp h, Running.afterStep_of_not_accepted (.inl hoffered), Running.linesLeft_of_now hnow,
      dropResets_of_directives hnone]
  · rw [hready]
    rfl
  · rw [hstall, Policy.outReady, decide_eq_true_iff]

/-- Settles O60: at its end a program's step only moves the environment on, and leaves the program at its end. -/
theorem programEndIsFinal : Obligations.ProgramEndIsFinal := by
  intro wT m h
  obtain ⟨p, hs, hp, hend⟩ := Mach.programEnded_iff.1 h
  exact ⟨m.moveOn, step_of_atEnd hs hp hend, rfl, rfl,
    Mach.programEnded_iff.2 ⟨p.afterStep m.block, by simp [hs], by simp [hs, hp], hend.afterStep⟩⟩

/-- Settles O1: each word is decoded as it stands. -/
theorem decoderVectorsRead : Obligations.DecoderVectorsRead :=
  ⟨rfl, rfl, rfl, rfl, rfl, rfl⟩

/-- Settles O5: the decoder takes `W_T + 8` bits and rejects any other number of them by name. -/
theorem commandsHaveOneLength : Obligations.CommandsHaveOneLength := by
  intro wT nbits n
  refine ⟨⟨fun ⟨i, h⟩ => ?_, fun ⟨hbits, hlt⟩ => ?_⟩, fun h => ?_⟩
  · obtain ⟨hbits, hlt, -⟩ := decodeBits_eq_ok.1 h
    exact ⟨hbits, hlt⟩
  · exact ⟨_, decodeBits_eq_ok.2 ⟨hbits, hlt, rfl⟩⟩
  · have hreject := decodeBits_of_ne h n
    exact ⟨hreject, fun m => withFetchWord_of_error hreject⟩

/-- Settles O9: ENCODE refuses a bit time that no field carries, and what is decoded fits. -/
theorem tooWideBitTimeIsRefused : Obligations.TooWideBitTimeIsRefused :=
  fun _ => ⟨fun b _ m h => exec_encode_too_wide b m h, fun w m => ⟨_, exec_decode w m⟩⟩

end Sys2Proof.Machine
end

section
/-! PROOFS. The ENCODE family (40_encode.md): acceptance (rule R84), the scan (R85 to R88), the laws of the reference
function (R82, R93, R94, R95) and ENCODE carried to its end (R80, R160).

Each kind of step is first one equation of `step`. The laws of the reference function are inductions over the scan of
rule R82. That a frame operation ends is said of the registers alone, with a bound on the ready samples it still needs;
a machine that runs over a script is then shown to do what the registers do. -/

namespace Sys2Proof.Machine

section
variable {wT t : Nat} {r : Block wT} {inp : Inputs wT} {m : Mach wT}

/-! ## Acceptance (rule R84) -/

/-- `zext_W_D` of a bit time given as a number (rule R62). -/
theorem zextDelay_ofNat (ht : t < 2 ^ wT) : zextDelay (BitVec.ofNat wT t) = BitVec.ofNat (wT + 4) t := by
  have hlt : t < 2 ^ (wT + 4) := ht.trans_le (Nat.pow_le_pow_right (by omega) (by omega))
  apply BitVec.eq_of_toNat_eq
  rw [zextDelay_toNat, BitVec.toNat_ofNat, BitVec.toNat_ofNat, Nat.mod_eq_of_lt ht, Nat.mod_eq_of_lt hlt]

/-- Bit 8 of `{1, b}` is the stop bit (rule R61). -/
theorem frameWord_stop (b : Byte) : (frameWord b).getLsbD 8 = true := by
  rw [frameWord_bit]
  rfl

/-- `{1, b}`, given as a number (rule R61). -/
theorem frameWord_eq_ofNat (b : Byte) : frameWord b = BitVec.ofNat 9 (256 + b.toNat) := by
  have := b.isLt
  apply BitVec.eq_of_toNat_eq
  rw [frameWord_toNat, BitVec.toNat_ofNat, Nat.mod_eq_of_lt (by omega)]

/-- The registers after acceptance with `t != 0`, all nine (rule R84). -/
theorem Block.startFrame_eq (b : Byte) (t : BitTime wT) (r : Block wT) :
    r.startFrame b t =
      { busy := true, fault := r.fault, outv := r.outv, outd := r.outd, level := false, acc := zextDelay t, t := t,
        frame := frameWord b, idx := 0#4 } := rfl

/-- A bit time other than 0 is at least 1 as a number (rule R62). -/
theorem bitTime_pos {x : BitTime wT} (h : x ≠ 0#wT) : 1 ≤ x.toNat :=
  Nat.pos_of_ne_zero fun h0 => h (BitVec.eq_of_toNat_eq (by simpa using h0))

/-- A ready block accepts what is offered (rule R22). -/
theorem Block.accepts_of_ready (hready : r.inReady = true) (hvalid : inp.inValid = true) : r.accepts inp = true := by
  simp [Block.accepts, hready, hvalid]

/-- A busy block accepts nothing (rule R22). -/
theorem Block.not_accepts_of_busy (h : r.busy = true) : r.accepts inp = false := by
  simp [Block.accepts, Block.inReady, h]

/-- A ready block does not advance (rule R30). -/
theorem Block.not_adv_of_ready (h : r.inReady = true) : r.adv = false := by
  simp [Block.adv, (Block.inReady_iff.1 h).1]

@[simp] theorem Block.afterXfer_outv : (r.afterXfer inp).outv = (r.outv && !inp.outReady) := by
  rw [Block.afterXfer_eq]
  cases hv : r.outv <;> cases hy : inp.outReady <;> simp [Block.xfer, hv, hy]

@[simp] theorem Block.afterXfer_busy : (r.afterXfer inp).busy = r.busy := by rw [Block.afterXfer_eq]
@[simp] theorem Block.afterXfer_fault : (r.afterXfer inp).fault = r.fault := by rw [Block.afterXfer_eq]
@[simp] theorem Block.afterXfer_outd : (r.afterXfer inp).outd = r.outd := by rw [Block.afterXfer_eq]
@[simp] theorem Block.afterXfer_level : (r.afterXfer inp).level = r.level := by rw [Block.afterXfer_eq]
@[simp] theorem Block.afterXfer_acc : (r.afterXfer inp).acc = r.acc := by rw [Block.afterXfer_eq]
@[simp] theorem Block.afterXfer_t : (r.afterXfer inp).t = r.t := by rw [Block.afterXfer_eq]
@[simp] theorem Block.afterXfer_frame : (r.afterXfer inp).frame = r.frame := by rw [Block.afterXfer_eq]
@[simp] theorem Block.afterXfer_idx : (r.afterXfer inp).idx = r.idx := by rw [Block.afterXfer_eq]

/-! ## The advance steps and the hold (rules R85 to R88) -/

/-- While IDX is at most 8, a bit at LEVEL extends the run (rule R85). -/
theorem Block.advance_of_same (hi : r.idx.toNat ≤ 8) (hs : r.scannedBit = r.level) :
    r.advance = .next r.scanSame := by
  rw [Block.advance, if_pos hi, if_pos hs]

/-- A bit at the other level emits the run (rule R86). -/
theorem Block.advance_of_change (hi : r.idx.toNat ≤ 8) (hs : r.scannedBit ≠ r.level) :
    r.advance = .next r.scanChange := by
  rw [Block.advance, if_pos hi, if_neg hs]

/-- With IDX at 9 the final push is due (rule R87). -/
theorem Block.advance_of_nine (hi : r.idx = 9#4) : r.advance = .next r.finalPush := by
  simp [Block.advance, hi]

/-- A step that advances the scan moves the environment on and writes the registers alone (rule R30). -/
theorem step_of_advance (hrst : m.inputs.rst = false) (ha : m.block.adv = true) (h : m.block.advance = .next r) :
    step ⟨wT, m⟩ = .next ⟨wT, { m.moveOn with block := r }⟩ := by
  rw [step_advance hrst ha, h, mapNext_next]

/-- With the final push due, LEVEL is that of the stop bit, the last bit scanned (rules R29, R87). -/
theorem Block.Inv.level_of_nine (h : r.Inv) (hb : r.busy = true) (hi : r.idx = 9#4) : r.level = true := by
  obtain ⟨k, hrun⟩ := h.i3_i4 hb
  calc r.level = framePos r.frame r.idx.toNat := hrun.framePos_idx.symm
    _ = r.frame.getLsbD 8 := by rw [hi]; rfl
    _ = true := h.stop hb

end

section
variable {t : Nat}

/-! ## The laws of the reference function (rules R81, R82, R93 to R95) -/

/-- The scan gives each bit one bit time (rule R93). -/
theorem scan_sum (t : Nat) (vs : List Bool) (l : Level) (acc : Nat) :
    (scan t vs l acc).sum = acc + vs.length * t := by
  induction vs generalizing l acc with
  | nil => simp [scan]
  | cons v vs ih =>
    rw [scan, List.length_cons, Nat.succ_mul]
    split
    · rw [ih]; omega
    · rw [List.sum_cons, ih]; omega

/-- Held at alternating levels, the scan's delays give the run in ACC and then each bit for one bit time (rules R81,
R95). -/
theorem waveform_scan (t : Nat) (vs : List Bool) (l : Level) (acc : Nat) :
    waveform l (scan t vs l acc) = List.replicate acc l ++ vs.flatMap (List.replicate t) := by
  induction vs generalizing l acc with
  | nil => simp [scan, waveform]
  | cons v vs ih =>
    rw [scan, List.flatMap_cons]
    split
    · next hv => rw [ih, hv, ← List.append_assoc, List.replicate_append_replicate]
    · next hv => rw [waveform, ih, Bool.eq_not_of_ne hv]

/-- The scan has one delay more than the frame has level changes (rule R94); `f` gives the frame's positions, and
`f 0` is the level the scan begins at. -/
theorem scan_length (t n : Nat) (f : Nat → Bool) (acc : Nat) :
    (scan t ((List.range n).map (fun j => f (j + 1))) (f 0) acc).length =
      1 + (List.range n).countP (fun j => f (j + 1) != f j) := by
  induction n generalizing f acc with
  | zero => rfl
  | succ n ih =>
    rw [List.range_succ_eq_map, List.map_cons, List.map_map, List.countP_cons, List.countP_map, scan]
    have htail := ih (fun j => f (j + 1))
    by_cases hf : f 1 = f 0
    · simpa [hf, Function.comp_def] using htail (acc + t)
    · have hnot : f 1 = !f 0 := Bool.eq_not_of_ne hf
      simpa [hnot, Function.comp_def, ← Nat.add_assoc] using htail t

/-- A scan's delays are even in number exactly if its last bit is not at the level it begins at (rule R95). -/
theorem scan_length_mod_two (t : Nat) (vs : List Bool) (l : Level) (acc : Nat) :
    (scan t vs l acc).length % 2 = if vs.getLastD l = l then 1 else 0 := by
  induction vs generalizing l acc with
  | nil => simp [scan]
  | cons v vs ih =>
    rw [scan, List.getLastD_cons]
    split
    · next hv => rw [ih, hv]
    · next hv =>
      rw [List.length_cons, Nat.add_mod, ih, Bool.eq_not_of_ne hv]
      cases vs.getLastD (!l) <;> cases l <;> rfl

/-- For a bit time of at least 1 the encoding is the scan (rule R82). -/
theorem encodeByte_eq_scan (b : Byte) (ht : 1 ≤ t) :
    encodeByte b t = scan t (scanOrder (frameWord b)) false t := if_neg (by omega)

/-- The frame is the start bit and then the scanned bits (rule R81). -/
theorem frameBits_eq (b : Byte) : frameBits b = false :: scanOrder (frameWord b) := by
  have hdata : (List.range 8).map (frameWord b).getLsbD = (List.range 8).map b.getLsbD :=
    List.map_congr_left fun j hj => by rw [frameWord_bit, if_pos (List.mem_range.1 hj)]
  rw [scanOrder, show Config.scannedBits = 8 + 1 from rfl, List.range_succ, List.map_append, hdata, List.map_singleton,
    frameWord_stop]
  rfl

/-- The number of delays of a byte (rule R94). -/
theorem encodeByte_length (b : Byte) (ht : 1 ≤ t) : (encodeByte b t).length = delayCount b := by
  rw [encodeByte_eq_scan b ht]
  exact scan_length t 9 (framePos (frameWord b)) t

end

section
variable {wT L : Nat} {r r' : Block wT} {inp first : Inputs wT} {is : List (Inputs wT)} {m : Mach wT}

/-! ## What a frame operation still needs of its consumer (rules R98, R160) -/

/-- A bound on the steps with `out_ready = 1` that `r` still needs until the consumer has received `L` delays: one for
each delay, and one for each advance step left while OUTV and the consumer have not got them all. -/
def Block.readyNeeded {wT : Nat} (L : Nat) (r : Block wT) : Nat :=
  L + if r.outv.toNat < L then 10 - r.idx.toNat else 0

/-- A block that is not busy owes what is in the output register and no more. -/
theorem Block.owed_length_of_not_busy (h : r.busy = false) : r.owed.length = r.outv.toNat := by
  rw [Block.owed, Block.toEmit_of_not_busy h]
  cases r.outv <;> rfl

/-- A scan emits its last run whatever bits are left (rule R82). -/
theorem scan_ne_nil (t : Nat) (vs : List Bool) (l : Level) (acc : Nat) : scan t vs l acc ≠ [] := by
  induction vs generalizing l acc with
  | nil => simp [scan]
  | cons v vs ih =>
    rw [scan]
    split
    · exact ih l _
    · exact List.cons_ne_nil _ _

/-- A block that owes nothing is idle: a busy one has its last run to emit (rule R119). -/
theorem Block.idle_of_owed_nil (h : r.owed = []) : r.idle = true := by
  obtain ⟨hout, hemit⟩ := List.append_eq_nil_iff.1 h
  have hv : r.outv = false := by
    by_contra hv
    simp [hv] at hout
  have hb : r.busy = false := by
    by_contra hb
    simp [Block.toEmit, hb, scan_ne_nil] at hemit
  simp [Block.idle, hb, hv]

/-- An advance step does one of the steps that were needed; the final push leaves no delay to come. -/
theorem Block.Inv.readyNeeded_advance (h : r.Inv) (ha : r.adv = true) (hr : r.advance = .next r')
    (hL : L ≤ r.owed.length) : r'.readyNeeded L ≤ r.readyNeeded L - 1 := by
  obtain ⟨hb, -, hv⟩ := Block.adv_iff.1 ha
  have howed := h.owed_advance ha hr
  rcases Block.advance_cases hr with ⟨hi, -, rfl⟩ | ⟨hi, -, rfl⟩ | ⟨hi, rfl⟩
  · have hidx : r.scanSame.idx.toNat = r.idx.toNat + 1 := index_succ_toNat hi
    simp only [Block.readyNeeded, hidx, Block.scanSame_outv, hv, Bool.toNat_false]
    split <;> omega
  · have hidx : r.scanChange.idx.toNat = r.idx.toNat + 1 := index_succ_toNat hi
    simp only [Block.readyNeeded, hidx, Block.scanChange_outv, hv, Bool.toNat_false, Bool.toNat_true]
    split <;> split <;> omega
  · rw [← howed, Block.owed_length_of_not_busy (finalPush_busy r), finalPush_outv, Bool.toNat_true] at hL
    simp only [Block.readyNeeded, Block.finalPush_outv, Block.finalPush_idx, hi, hv, Bool.toNat_false, Bool.toNat_true]
    split <;> split <;> omega

/-- A step without a reset writes what rule R30 writes. -/
theorem Block.registerTransfer_of_no_reset (h : inp.rst = false) (n : Nat) :
    r.registerTransfer inp n = r.moved inp := by
  rw [Block.registerTransfer, h, if_neg Bool.false_ne_true]

/-- A step that does not advance leaves OUTV to the transfer (rules R33, R111). -/
theorem Block.moved_outv_of_not_adv (ha : r.adv = false) : (r.moved inp).outv = (r.outv && !inp.outReady) := by
  rw [Block.moved_of_not_adv ha]
  split <;> simp

/-- The number of delays received in a step without a reset (rule R111). -/
theorem Block.received_length (hrst : inp.rst = false) :
    (r.received inp).length = (r.outv && inp.outReady).toNat := by
  rw [Block.received, hrst, Block.xfer]
  cases r.outv <;> cases inp.outReady <;> rfl

/-- A busy block accepts nothing, so that a step that does not advance is a transfer at most (rule R88). -/
theorem Block.moved_of_held (ha : r.adv = false) (hb : r.busy = true) : r.moved inp = r.afterXfer inp := by
  rw [Block.moved_of_not_adv ha, Block.not_accepts_of_busy hb, if_neg Bool.false_ne_true]

/-- A step never needs more, and one with `out_ready = 1` needs one less, whatever the host offers. -/
theorem Block.Inv.readyNeeded_moved (h : r.Inv) (hrst : inp.rst = false) (hL : L ≤ r.owed.length) :
    (r.moved inp).readyNeeded (L - (r.received inp).length) ≤ r.readyNeeded L - inp.outReady.toNat := by
  have hkept : (r.outv && !inp.outReady).toNat + (r.outv && inp.outReady).toNat = r.outv.toNat := by
    cases r.outv <;> cases inp.outReady <;> rfl
  have htaken : (r.outv && inp.outReady).toNat = min r.outv.toNat inp.outReady.toNat := by
    cases r.outv <;> cases inp.outReady <;> rfl
  have hready := inp.outReady.toNat_le
  rw [Block.received_length hrst]
  rcases Bool.eq_false_or_eq_true r.adv with ha | ha
  · obtain ⟨hb, -, hv⟩ := Block.adv_iff.1 ha
    obtain ⟨r', hr⟩ := Block.advance_answers (h.i2_idx hb)
    have := h.readyNeeded_advance ha hr hL
    rw [Block.moved_of_advance ha hr, hv, Bool.false_and, Bool.toNat_false, Nat.sub_zero]
    omega
  · rw [Block.readyNeeded, Block.readyNeeded, Block.moved_outv_of_not_adv ha]
    rcases Bool.eq_false_or_eq_true r.busy with hb | hb
    · have hv : r.outv.toNat = 1 := by
        rw [Bool.toNat_eq_one]
        simpa [Block.adv, hb, h.i1 hb] using ha
      rw [Block.moved_of_held ha hb, Block.afterXfer_idx]
      split <;> split <;> omega
    · rw [Block.owed_length_of_not_busy hb] at hL
      rw [if_neg (by omega), if_neg (by omega)]
      omega

/-! ## The registers over a list of port samples (rules R98, R160) -/

/-- Over steps without a reset the consumer receives, and the block then owes, what was owed and the encodings of the
commands accepted, in order (rule R113). -/
theorem Block.Inv.runReceived_owed (h : r.Inv) (hrst : ∀ i ∈ is, i.rst = false) (n : Nat) :
    (Block.runReceived n r is).map BitVec.toNat ++ (Block.runRegs n r is).owed =
      r.owed ++ encodeAll (Block.runStarted n r is) := by
  induction is generalizing r n with
  | nil => simp [Block.runReceived, Block.runRegs, Block.runStarted, encodeAll]
  | cons i is ih =>
    obtain ⟨hi, his⟩ := List.forall_mem_cons.1 hrst
    rw [Block.runReceived, Block.runRegs, Block.runStarted, Block.registerTransfer_of_no_reset hi, List.map_append,
      List.append_assoc, ih (h.moved i) his, encodeAll_append, ← List.append_assoc, h.received_owed_moved hi,
      List.append_assoc]

/-- A consumer that is ready as often as needed receives the first `L` delays owed (rule R160). -/
theorem Block.Inv.le_runReceived_length (h : r.Inv) (hrst : ∀ i ∈ is, i.rst = false) (hL : L ≤ r.owed.length)
    (hneed : r.readyNeeded L ≤ is.countP (fun i => i.outReady)) (n : Nat) :
    L ≤ (Block.runReceived n r is).length := by
  induction is generalizing r L n with
  | nil =>
    rw [Block.readyNeeded, List.countP_nil] at hneed
    omega
  | cons i is ih =>
    obtain ⟨hi, his⟩ := List.forall_mem_cons.1 hrst
    have howed := congrArg List.length (h.received_owed_moved hi)
    have hstep := h.readyNeeded_moved hi hL
    rw [List.length_append, List.length_append, List.length_map] at howed
    rw [List.countP_cons] at hneed
    have hrest := ih (h.moved i) his (L := L - (r.received i).length) (by omega)
      (by cases hready : i.outReady <;> simp_all <;> omega) (n + 1)
    rw [Block.runReceived, Block.registerTransfer_of_no_reset hi, List.length_append]
    omega

/-- Steps without a reset and an acceptance start nothing and leave FAULT as it is (rules R84, R130). -/
theorem Block.run_of_no_accept (hrst : ∀ i ∈ is, i.rst = false) (n : Nat) (h : Block.runAccepts n r is = 0) :
    Block.runStarted n r is = [] ∧ (Block.runRegs n r is).fault = r.fault := by
  induction is generalizing r n with
  | nil => exact ⟨rfl, rfl⟩
  | cons i is ih =>
    obtain ⟨hi, his⟩ := List.forall_mem_cons.1 hrst
    obtain ⟨hhead, hrest⟩ := Nat.add_eq_zero_iff.1 h
    have hacc : r.accepts i = false := by simpa [hi] using hhead
    obtain ⟨hstarted, hfault⟩ := ih his (n + 1) hrest
    refine ⟨?_, hfault.trans ?_⟩
    · simp [Block.runStarted, Block.started, Block.startDue, hacc, hstarted]
    · simp [Block.registerTransfer_of_no_reset hi, Block.moved, Block.badDue, hacc]

/-- Two ways to cut one list: where the first part of the one is no longer than that of the other, it begins it. -/
theorem exists_append_of_length_le {α : Type} {a b c d : List α} (h : a ++ b = c ++ d) (hle : c.length ≤ a.length) :
    ∃ more, a = c ++ more ∧ d = more ++ b := by
  obtain ⟨more, rfl⟩ := List.prefix_of_prefix_length_le (List.prefix_append c d) (h ▸ List.prefix_append a b) hle
  exact ⟨more, rfl, by simpa using h.symm⟩

/-- What is received in an accepting step, and what is owed after it, is what was owed before and the command's encoding
(rules R84, R113). -/
theorem Block.accepted_owed (hready : r.inReady = true) (hrst : inp.rst = false) (hvalid : inp.inValid = true) :
    (r.received inp).map BitVec.toNat ++ (r.moved inp).owed = r.owed ++ encodeByte inp.inByte inp.inT.toNat := by
  rw [(Block.inv_of_not_busy (Block.inReady_iff.1 hready).1).received_owed_moved hrst, Block.encodeAll_started hrst,
    if_pos (Block.accepts_of_ready hready hvalid)]

/-- The consumer has received a command's delays where it is ready often enough after the acceptance (rule R160). -/
theorem Block.frame_received (hready : r.inReady = true) (hfirst : first.rst = false)
    (hvalid : first.inValid = true) (ht : first.inT ≠ 0#wT) (hrst : ∀ i ∈ is, i.rst = false)
    (hneed : 10 + delayCount first.inByte + r.outv.toNat ≤ is.countP (fun i => i.outReady)) (n : Nat) :
    (r.owed ++ encodeByte first.inByte first.inT.toNat).length ≤ (Block.runReceived n r (first :: is)).length := by
  have hb : r.busy = false := (Block.inReady_iff.1 hready).1
  have hinv : (r.moved first).Inv := (Block.inv_of_not_busy hb).moved first
  have hlength := congrArg List.length (Block.accepted_owed hready hfirst hvalid)
  have hcount : (r.owed ++ encodeByte first.inByte first.inT.toNat).length =
      r.outv.toNat + delayCount first.inByte := by
    rw [List.length_append, Block.owed_length_of_not_busy hb, encodeByte_length _ (bitTime_pos ht)]
  rw [List.length_append, List.length_map, hcount] at hlength
  have hrest : (r.moved first).owed.length ≤ (Block.runReceived (n + 1) (r.moved first) is).length := by
    refine hinv.le_runReceived_length hrst le_rfl ?_ (n + 1)
    rw [Block.readyNeeded]
    split <;> omega
  rw [hcount, Block.runReceived, Block.registerTransfer_of_no_reset hfirst, List.length_append]
  omega

/-- A command accepted with `t != 0` is emitted and received as `EncodeByte(b, t)`, after the delay still offered, where
the consumer is ready often enough, whatever the host offers meanwhile. If no other command is accepted nothing follows,
and the block ends idle and not faulted (rules R98, R160). -/
theorem Block.frame_runs_to_end (hready : r.inReady = true) (hfirst : first.rst = false)
    (hvalid : first.inValid = true) (ht : first.inT ≠ 0#wT) (hrst : ∀ i ∈ is, i.rst = false)
    (hneed : 10 + delayCount first.inByte + r.outv.toNat ≤ is.countP (fun i => i.outReady)) (n : Nat) :
    ∃ more,
      (Block.runReceived n r (first :: is)).map BitVec.toNat =
        r.owed ++ encodeByte first.inByte first.inT.toNat ++ more ∧
      (Block.runAccepts n r (first :: is) = 1 →
        more = [] ∧ (Block.runRegs n r (first :: is)).idle = true ∧
          (Block.runRegs n r (first :: is)).fault = false) := by
  obtain ⟨hb, hf⟩ := Block.inReady_iff.1 hready
  have hinv : r.Inv := Block.inv_of_not_busy hb
  have hacc : r.accepts first = true := Block.accepts_of_ready hready hvalid
  have hall := hinv.runReceived_owed (List.forall_mem_cons.2 ⟨hfirst, hrst⟩) n
  rw [Block.runStarted, encodeAll_append, Block.encodeAll_started hfirst, if_pos hacc, ← List.append_assoc] at hall
  have hlength := Block.frame_received hready hfirst hvalid ht hrst hneed n
  obtain ⟨more, hreceived, hmore⟩ := exists_append_of_length_le hall (by rwa [List.length_map])
  refine ⟨more, hreceived, fun hone => ?_⟩
  have hnone : Block.runAccepts (n + 1) (r.registerTransfer first n) is = 0 := by
    simpa [Block.runAccepts, hfirst, hacc] using hone
  obtain ⟨hstarted, hfault⟩ := Block.run_of_no_accept hrst (n + 1) hnone
  rw [hstarted] at hmore
  obtain ⟨hnil, howed⟩ := List.append_eq_nil_iff.1 hmore.symm
  refine ⟨hnil, Block.idle_of_owed_nil howed, hfault.trans ?_⟩
  simp [Block.registerTransfer_of_no_reset hfirst, Block.moved, Block.badDue, ht, hf]

/-! ## A machine that runs over a script -/

/-- A machine that runs over a script without a reset does what the registers do over its samples: the consumer receives
the same, and the same commands are accepted. -/
theorem run_script (hinv : m.block.Inv) (hs : m.script = is) (hrst : ∀ i ∈ is, i.rst = false) :
    ∃ m' : Mach wT, core.run is.length (State.mk wT m) = .next (State.mk wT m') ∧
      m'.block = Block.runRegs m.stepNo m.block is ∧
      m'.stream = m.stream ++ Block.runReceived m.stepNo m.block is ∧ m'.segments = m.segments ∧
      State.acceptsIn is.length ⟨wT, m⟩ = Block.runAccepts m.stepNo m.block is := by
  induction is generalizing m with
  | nil => exact ⟨m, rfl, rfl, by simp [Block.runReceived], rfl, rfl⟩
  | cons i is ih =>
    obtain ⟨hi, his⟩ := List.forall_mem_cons.1 hrst
    have hinputs : m.inputs = i := by simp [Mach.inputs, hs]
    obtain ⟨m₁, hstep⟩ := step_answers (hinv.noRule m.inputs)
    obtain ⟨_, e, hscript, -, hstepNo⟩ := step_environment hstep
    cases e
    have hblock := step_registerTransfer hstep
    obtain ⟨hstream, hsegments⟩ := step_streams hstep
    rw [hinputs] at hblock hstream hsegments
    obtain ⟨m', hrun, hblock', hstream', hsegments', haccepts'⟩ :=
      ih (m := m₁) (hblock ▸ hinv.registerTransfer i m.stepNo) (by simp [hscript, hs]) his
    have hnow : m₁.stepNo = m.stepNo + 1 := hstepNo
    rw [hblock, hnow] at hblock' hstream' haccepts'
    refine ⟨m', run_succ_eq_next.2 ⟨_, hstep, hrun⟩, hblock', ?_, ?_, ?_⟩
    · rw [hstream', hstream, hi, if_neg Bool.false_ne_true, List.append_assoc]
      rfl
    · simp [hsegments', hsegments, hi]
    · simp [State.acceptsIn, Block.runAccepts, hinputs, hstep, haccepts']

end

/-! ## The obligations -/

/-- Settles O7: the block is ready and `t` is not 0 in its field, so that a frame operation starts. -/
theorem encodeStartsFrameOperation : Obligations.EncodeStartsFrameOperation := by
  intro wT b t m hbusy hfault hpos hlt
  rw [exec_encode b m hlt, if_pos (Block.inReady_iff.2 ⟨hbusy, hfault⟩), Mach.onBlock,
    Block.accept_of_ne (ofNat_bitTime_ne_zero hlt hpos.ne'), Block.startFrame_eq, hfault, zextDelay_ofNat hlt,
    frameWord_eq_ofNat]

/-- Settles O16: the step does its transfer and then the acceptance, whose two cases are those of `t`. -/
theorem acceptingStepLatchesCommand : Obligations.AcceptingStepLatchesCommand := by
  intro wT m hrst hvalid hbusy hfault
  have hready : m.block.inReady = true := Block.inReady_iff.2 ⟨hbusy, hfault⟩
  have hx : (m.moveOn.transferIf (m.block.xfer m.inputs)).block = m.block.afterXfer m.inputs :=
    m.moveOn.transferIf_xfer_block m.inputs
  have hstep := step_command hrst (Block.not_adv_of_ready hready)
  rw [if_pos (Block.accepts_of_ready hready hvalid)] at hstep
  refine ⟨_, hstep, ?_, ?_, ?_, ?_, ?_, ?_⟩
  · simp [hx]
  · simp [hx]
  · simp [Block.xfer]
  · simp
  · intro ht
    simp [hx, ht, hbusy]
  · intro ht
    simp [hx, Block.accept_of_ne ht, hfault, frameWord_toNat]

/-- Settles O18: the step is an advance whose bit is at LEVEL. -/
theorem sameLevelStepExtendsRun : Obligations.SameLevelStepExtendsRun := by
  intro wT m hrst hbusy hfault houtv hidx hbit
  exact ⟨_, step_of_advance hrst (Block.adv_iff.2 ⟨hbusy, hfault, houtv⟩) (Block.advance_of_same hidx hbit),
    rfl, rfl, rfl, index_succ_toNat hidx⟩

/-- Settles O19: the step is an advance whose bit is at the other level. -/
theorem levelChangeStepEmitsRun : Obligations.LevelChangeStepEmitsRun := by
  intro wT m hrst hbusy hfault houtv hidx hbit
  exact ⟨_, step_of_advance hrst (Block.adv_iff.2 ⟨hbusy, hfault, houtv⟩) (Block.advance_of_change hidx hbit),
    rfl, rfl, rfl, index_succ_toNat hidx⟩

/-- Settles O20: the step is an advance with every bit scanned. -/
theorem finalPushEndsFrameOperation : Obligations.FinalPushEndsFrameOperation := by
  intro wT m hrst hbusy hfault houtv hidx
  exact ⟨_, step_of_advance hrst (Block.adv_iff.2 ⟨hbusy, hfault, houtv⟩) (Block.advance_of_nine hidx),
    rfl, rfl, rfl⟩

/-- Settles O21: the run in ACC ends at the stop bit. -/
theorem finalPushHasStopLevel : Obligations.FinalPushHasStopLevel :=
  fun _ _ hinv hbusy hidx => hinv.regs.level_of_nine hbusy hidx

/-- Settles O22: a full output register excludes an advance and a busy block excludes an acceptance, so that a transfer
alone is left; with an empty one the step is an advance. -/
theorem scanHoldsWhileOutputFull : Obligations.ScanHoldsWhileOutputFull := by
  constructor
  · intro wT m hrst hbusy houtv
    have hadv : m.block.adv = false := by simp [Block.adv, houtv]
    have hstep := step_command hrst hadv
    rw [Block.not_accepts_of_busy hbusy, if_neg Bool.false_ne_true] at hstep
    refine ⟨_, hstep, ?_⟩
    refine (m.moveOn.transferIf_xfer_block m.inputs).trans ?_
    rw [Mach.moveOn_block, Block.afterXfer_eq]
    cases hready : m.inputs.outReady <;> simp [Block.xfer, houtv, hready]
  · intro wT m hinv hrst hbusy houtv
    obtain ⟨r, hr⟩ := Block.advance_answers (hinv.regs.i2_idx hbusy)
    have hadv : m.block.adv = true := Block.adv_iff.2 ⟨hbusy, hinv.regs.i1 hbusy, houtv⟩
    refine ⟨_, step_of_advance hrst hadv hr, ?_⟩
    rcases Block.advance_cases hr with ⟨hidx, -, rfl⟩ | ⟨hidx, -, rfl⟩ | ⟨hidx, rfl⟩
    · exact .inl ⟨index_succ_toNat hidx, hbusy⟩
    · exact .inl ⟨index_succ_toNat hidx, hbusy⟩
    · exact .inr ⟨BitVec.eq_of_toNat_eq hidx, rfl⟩

/-- Settles O38: the accumulator is seeded to one bit time, and nine bits are scanned. -/
theorem encodingSumsToTenBitTimes : Obligations.EncodingSumsToTenBitTimes := by
  intro b t ht
  have hbits : (scanOrder (frameWord b)).length = 9 := rfl
  rw [encodeByte_eq_scan b ht, scan_sum, hbits]
  omega

/-- Settles O44: the scan's delays hold the start bit and then each scanned bit, the last of which is the stop bit. -/
theorem delaysAlternateLevels : Obligations.DelaysAlternateLevels := by
  intro b t ht
  have hlast : (scanOrder (frameWord b)).getLastD false = true := frameWord_stop b
  rw [encodeByte_eq_scan b ht]
  constructor
  · rw [waveform_scan, frameWaveform, frameBits_eq, List.flatMap_cons]
  · rw [scan_length_mod_two, hlast]
    rfl

/-- Settles O52: over its script the machine does what its registers do, and they carry the frame operation to its
end. -/
theorem encodeAppendsItsDelays : Obligations.EncodeAppendsItsDelays := by
  intro wT m first rest hs hbusy hfault hfirst hvalid ht hrst hneed
  have hready : m.block.inReady = true := Block.inReady_iff.2 ⟨hbusy, hfault⟩
  obtain ⟨m', hrun, hblock, hstream, hsegments, haccepts⟩ :=
    run_script (Block.inv_of_not_busy hbusy) hs (List.forall_mem_cons.2 ⟨hfirst, hrst⟩)
  obtain ⟨more, hreceived, hend⟩ := Block.frame_runs_to_end hready hfirst hvalid ht hrst
    (by cases hv : m.block.outv <;> simpa [hv] using hneed) m.stepNo
  refine ⟨m', more, hrun, hsegments, ?_, fun hone => ?_⟩
  · rw [hstream, List.map_append, hreceived, Block.owed, Block.toEmit_of_not_busy hbusy]
    simp only [List.append_nil, List.append_assoc]
  · rw [hblock]
    exact hend (haccepts.symm.trans hone)

end Sys2Proof.Machine
end

section
/-! PROOFS. The output channel family (41_output_stream.md): Emit (rule R110), the transfer (R111) and the hold of an
unready consumer (R88, R117).

A full output register excludes an advance, so that OUTD is kept and OUTV is the transfer's alone; a busy block excludes
an acceptance as well, so that under an unready consumer nothing but the environment moves on. -/

namespace Sys2Proof.Machine

section
variable {wT : Nat} {r : Block wT} {inp : Inputs wT} {m m' : Mach wT} {i : Inputs wT} {is : List (Inputs wT)}

/-! ## A full output register (rules R30, R110, R111) -/

/-- No step advances the scan while a delay is offered (rule R30). -/
theorem Block.not_adv_of_outv (h : r.outv = true) : r.adv = false := by
  simp [Block.adv, h]

/-- OUTD is loaded in an advance step only (rule R110). -/
theorem Block.moved_outd_of_not_adv (ha : r.adv = false) : (r.moved inp).outd = r.outd := by
  rw [Block.moved_of_not_adv ha]
  split <;> simp

/-- Where OUTV rises the step emits the run in ACC (rules R86, R87, R110). -/
theorem Block.moved_outd_of_outv_rises (hv : r.outv = false) (hrises : (r.moved inp).outv = true) :
    (r.moved inp).outd = r.acc := by
  have hemit : (r.changeDue || r.pushDue) = true := by
    by_contra hnone
    simp [Block.moved, hnone, hv] at hrises
  exact if_pos hemit

/-- What the consumer receives of an offered delay (rule R111). -/
theorem Block.received_of_outv (hrst : inp.rst = false) (hv : r.outv = true) :
    r.received inp = if inp.outReady then [r.outd] else [] := by
  simp [Block.received, Block.xfer, hrst, hv]

/-- After a step without a reset the registers hold what rule R30 writes. -/
theorem step_block_of_no_reset (hrst : m.inputs.rst = false) (h : step ⟨wT, m⟩ = .next ⟨wT, m'⟩) :
    m'.block = m.block.moved m.inputs := by
  rw [step_registerTransfer h, Block.registerTransfer_of_no_reset hrst]

/-- A step in which OUTV is set at its end is no reset (rule R150). -/
theorem step_no_reset_of_outv (h : step ⟨wT, m⟩ = .next ⟨wT, m'⟩) (hv : m'.block.outv = true) :
    m.inputs.rst = false := by
  by_contra hrst
  rw [step_registerTransfer h, Block.registerTransfer, if_pos (Bool.eq_true_of_not_eq_false hrst)] at hv
  exact Bool.false_ne_true hv

/-! ## An unready consumer (rules R88, R117) -/

/-- A script's first sample is what the ports carry in the coming step (rule R20). -/
theorem Mach.inputs_of_script_cons (hs : m.script = i :: is) : m.inputs = i := by
  simp [Mach.inputs, hs]

/-- While the script lasts, the environment moves on by one sample and one step. -/
theorem Mach.moveOn_of_script_cons (hs : m.script = i :: is) :
    m.moveOn = { m with script := is, stepNo := m.stepNo + 1 } := by
  simp [Mach.moveOn, hs]

/-- A busy block whose delay the consumer does not take holds: nothing but the environment moves on (rule R88). -/
theorem step_of_unready (hrst : m.inputs.rst = false) (hunready : m.inputs.outReady = false)
    (hbusy : m.block.busy = true) (hv : m.block.outv = true) : step ⟨wT, m⟩ = .next ⟨wT, m.moveOn⟩ := by
  have hx : m.block.xfer m.inputs = false := by simp [Block.xfer, hunready]
  rw [step_command hrst (Block.not_adv_of_outv hv), Block.not_accepts_of_busy hbusy, if_neg Bool.false_ne_true, hx,
    Mach.transferIf_false]

end

/-! ## The obligations -/

/-- Settles O23: a full output register excludes an advance, so that OUTD is kept and OUTV is the transfer's alone. -/
theorem transferDeliversOfferedDelay : Obligations.TransferDeliversOfferedDelay := by
  intro wT m hrst hv
  have ha : m.block.adv = false := Block.not_adv_of_outv hv
  obtain ⟨m', hstep⟩ := step_answers (m := m) (by simp [Block.noRule, ha])
  obtain ⟨hstream, hsegments⟩ := step_streams hstep
  have houtv : m'.block.outv = !m.inputs.outReady := by
    rw [step_block_of_no_reset hrst hstep, Block.moved_outv_of_not_adv ha, hv, Bool.true_and]
  rw [Block.received_of_outv hrst hv] at hstream
  refine ⟨m', hstep, ?_, ?_, fun hready => ?_, fun hready => ?_⟩
  · rw [step_block_of_no_reset hrst hstep, Block.moved_outd_of_not_adv ha]
  · simp [hsegments, hrst]
  · simp [houtv, hstream, hrst, hready]
  · simp [houtv, hstream, hrst, hready]

/-- Settles O24: OUTD is loaded in an advance step only, which a full output register excludes, and a step in which OUTV
rises is an advance that emits ACC. -/
theorem emitNeverOverwritesDelay : Obligations.EmitNeverOverwritesDelay := by
  refine fun wT => ⟨fun d r => rfl, fun m m' hrst hstep hchanged => ?_, fun m m' hstep hv hrises => ?_⟩
  · by_contra hfull
    have hv : m.block.outv = true := Bool.eq_true_of_not_eq_false hfull
    apply hchanged
    rw [step_block_of_no_reset hrst hstep, Block.moved_outd_of_not_adv (Block.not_adv_of_outv hv)]
  · have hblock := step_block_of_no_reset (step_no_reset_of_outv hstep hrises) hstep
    rw [hblock] at hrises ⊢
    exact Block.moved_outd_of_outv_rises hv hrises

/-- Settles O55, by induction on the samples: each step of them uses one up and leaves the block and its streams as they
are. -/
theorem unreadyConsumerHoldsBlock : Obligations.UnreadyConsumerHoldsBlock := by
  intro wT waiting rest
  induction waiting with
  | nil =>
    intro m hs _ _ _
    obtain rfl : m.script = rest := hs
    rfl
  | cons i waiting ih =>
    intro m hs hbusy hv hwaiting
    obtain ⟨⟨hrst, hunready⟩, hrest⟩ := List.forall_mem_cons.1 hwaiting
    have hinputs : m.inputs = i := Mach.inputs_of_script_cons hs
    have hstep := step_of_unready (hinputs ▸ hrst) (hinputs ▸ hunready) hbusy hv
    have hrun := ih m.moveOn (congrArg List.tail hs) hbusy hv hrest
    rw [List.length_cons, run_succ_eq_next]
    refine ⟨_, hstep, hrun.trans ?_⟩
    rw [Mach.moveOn_of_script_cons hs, Nat.add_right_comm, Nat.add_assoc]

end Sys2Proof.Machine
end

section
/-! PROOFS. The exceptions family (60_exceptions.md): BadBitTime is raised on acceptance of `t == 0` only (rules R130,
R143), a faulted block moves its output register alone (R131, R132), and a reset overrides both (R136).

Each kind of step is first one equation of `step`; that FAULT does not rise under a dutiful host is said of the register
transfer. -/

namespace Sys2Proof.Machine

section
variable {wT : Nat} {r : Block wT} {inp : Inputs wT} {m : Mach wT}

/-! ## Acceptance of `t == 0` (rules R130, R136) -/

/-- On the registers, BadBitTime sets FAULT and nothing else (rule R130). -/
theorem Mach.onBlock_raiseBadBitTime (m : Mach wT) :
    m.onBlock Block.raiseBadBitTime = { m with block := { m.block with fault := true } } := rfl

/-- Acceptance of `t == 0` raises BadBitTime (rule R84). -/
theorem Mach.onBlock_accept_zero (b : Byte) (m : Mach wT) :
    m.onBlock (Block.accept b 0#wT) = m.onBlock Block.raiseBadBitTime := by
  rw [Mach.onBlock, Block.accept_zero, Mach.onBlock]

/-- A ready block that is offered `t == 0` faults, after the step's transfer (rules R84, R130, R136). -/
theorem step_of_bad_accepted (hrst : m.inputs.rst = false) (hvalid : m.inputs.inValid = true)
    (ht : m.inputs.inT = 0#wT) (hready : m.block.inReady = true) :
    step ⟨wT, m⟩ =
      .next ⟨wT, (m.moveOn.transferIf (m.block.xfer m.inputs)).onBlock Block.raiseBadBitTime⟩ := by
  rw [step_command hrst (Block.not_adv_of_ready hready), if_pos (Block.accepts_of_ready hready hvalid), ht,
    Mach.onBlock_accept_zero]

/-! ## A faulted block (rules R131, R132) -/

/-- A faulted block does not advance (rule R30). -/
theorem Block.not_adv_of_fault (h : r.fault = true) : r.adv = false := by
  simp [Block.adv, h]

/-- A faulted block is not ready (rules R22, R132). -/
theorem Block.not_inReady_of_fault (h : r.fault = true) : r.inReady = false :=
  Block.inReady_eq_false_iff.2 (.inr h)

/-- Without a reset, the step of a faulted block is its transfer alone (rules R131, R132). -/
theorem step_of_fault (hrst : m.inputs.rst = false) (hfault : m.block.fault = true) :
    step ⟨wT, m⟩ = .next ⟨wT, m.moveOn.transferIf (m.block.xfer m.inputs)⟩ := by
  have hacc : m.block.accepts m.inputs = false := by simp [Block.accepts, Block.not_inReady_of_fault hfault]
  rw [step_command hrst (Block.not_adv_of_fault hfault), hacc, if_neg Bool.false_ne_true]

/-- The step's transfer writes OUTV alone, which falls where the consumer is ready (rule R111). -/
theorem Block.afterXfer_eq_outv (r : Block wT) (inp : Inputs wT) :
    r.afterXfer inp = { r with outv := r.outv && !inp.outReady } := by
  rw [← Block.afterXfer_outv, Block.afterXfer_eq]

/-! ## A dutiful host (rule R143) -/

/-- A host that keeps its duty raises no BadBitTime. -/
theorem Block.not_badDue_of_keepsDuty (h : inp.keepsDuty = true) : r.badDue inp = false := by
  by_contra hbad
  simp only [Block.badDue, Block.accepts, Bool.not_eq_false, Bool.and_eq_true, beq_iff_eq] at hbad
  obtain ⟨⟨hvalid, -⟩, ht⟩ := hbad
  simp [Inputs.keepsDuty, hvalid, ht] at h

/-- Under a host that keeps its duty FAULT does not rise, in a reset step or in any other (rules R130, R143, R150). -/
theorem Block.registerTransfer_fault_of_keepsDuty (hf : r.fault = false) (h : inp.keepsDuty = true) (n : Nat) :
    (r.registerTransfer inp n).fault = false := by
  unfold Block.registerTransfer
  split
  · rfl
  · rw [Block.moved, Block.not_badDue_of_keepsDuty h, if_neg Bool.false_ne_true, hf]

end

/-! ## The obligations -/

/-- Settles O17: the reset is the step's first guard, and BadBitTime is raised on the block that the step's transfer
leaves. -/
theorem faultAndTransferTogether : Obligations.FaultAndTransferTogether := by
  intro wT m
  refine ⟨step_reset, fun hrst hvalid ht houtReady hbusy hfault houtv => ?_⟩
  have hx : m.block.xfer m.inputs = true := by simp [Block.xfer, houtv, houtReady]
  have hstep := step_of_bad_accepted hrst hvalid ht (Block.inReady_iff.2 ⟨hbusy, hfault⟩)
  rw [hx, Mach.onBlock_raiseBadBitTime] at hstep
  exact ⟨_, hstep, rfl, rfl⟩

/-- Settles O26: a faulted block neither advances nor accepts, and a reset clears the three flags. -/
theorem faultStaysUntilReset : Obligations.FaultStaysUntilReset := by
  intro wT m hfault
  refine ⟨fun hrst => ?_, fun hrst => ⟨_, step_reset hrst, rfl⟩⟩
  have hblock : (m.moveOn.transferIf (m.block.xfer m.inputs)).block =
      { m.block with outv := m.block.outv && !m.inputs.outReady } :=
    (m.moveOn.transferIf_xfer_block m.inputs).trans (m.block.afterXfer_eq_outv m.inputs)
  have hstays : (m.moveOn.transferIf (m.block.xfer m.inputs)).block.fault = true := by rw [hblock, hfault]
  exact ⟨_, step_of_fault hrst hfault, hblock, hstays, Block.not_inReady_of_fault hstays⟩

/-- Settles O35: a block that meets the invariants has a rule for every step, and only an acceptance of `t == 0`, which
the host's duty excludes, raises FAULT. -/
theorem dutifulHostNeverFaults : Obligations.DutifulHostNeverFaults := by
  rintro ⟨wT, m⟩ hinv hfault hduty
  obtain ⟨m', hstep⟩ := step_answers (hinv.regs.noRule m.inputs)
  have hfault' : m'.block.fault = false := by
    rw [step_registerTransfer hstep, Block.registerTransfer_fault_of_keepsDuty hfault hduty]
  rw [hstep, safeOutcome, hfault', Bool.not_false]

/-- Settles O8: in a ready block both commands are accepted as BadBitTime. -/
theorem illegalRaisesBadBitTime : Obligations.IllegalRaisesBadBitTime := by
  intro wT b m hbusy hfault
  have hready : m.block.inReady = true := Block.inReady_iff.2 ⟨hbusy, hfault⟩
  constructor
  · rw [exec_illegal, if_pos hready, Mach.onBlock_raiseBadBitTime]
  · rw [exec_encode b m (Nat.two_pow_pos wT), if_pos hready, Mach.onBlock_accept_zero,
      Mach.onBlock_raiseBadBitTime]

end Sys2Proof.Machine
end

section
/-! PROOFS. The reset and hazards family (70_reset_and_hazards.md): a reset abandons the frame (rules R150, R151), the
operands are latched (R99, R156), and a frame operation runs to its end (R98, R160).

The advance steps of a frame are counted by a conservation law of the register transfer: an acceptance with `t != 0`
adds ten of them, and each advance takes one away. A run of the machine is then read as a run of its registers over the
port samples that the run meets, so that the laws of the registers hold of it. That a fair consumer ends a frame is an
induction on IDX, with the consumer's fairness as an induction principle for a full output register. -/

namespace Sys2Proof.Machine

section
variable {wT : Nat} {r r' : Block wT} {inp first : Inputs wT} {is : List (Inputs wT)} {m : Mach wT}

/-! ## A busy block (rules R30, R99, R156) -/

/-- A busy block's step reads `rst` and `out_ready` only: it resets, advances, or does its transfer (rule R30). -/
theorem step_of_busy (hbusy : m.block.busy = true) :
    step ⟨wT, m⟩ =
      if m.inputs.rst then .next ⟨wT, m.moveOn.resetStep m.stepNo⟩
      else if m.block.adv then mapNext (fun r => ⟨wT, { m.moveOn with block := r }⟩) m.block.advance
      else .next ⟨wT, m.moveOn.transferIf (m.block.xfer m.inputs)⟩ := by
  rcases Bool.eq_false_or_eq_true m.inputs.rst with hrst | hrst
  · rw [step_reset hrst, if_pos hrst]
  · rw [hrst, if_neg Bool.false_ne_true]
    rcases Bool.eq_false_or_eq_true m.block.adv with ha | ha
    · rw [step_advance hrst ha, if_pos ha]
    · rw [step_command hrst ha, Block.not_accepts_of_busy hbusy, ha, if_neg Bool.false_ne_true,
        if_neg Bool.false_ne_true]

/-! ## The advance steps of a frame operation (rules R84 to R87, R98) -/

/-- The advance steps that the frame operation in progress has still to do: one for each bit left to scan, and the final
push (rules R85 to R87). -/
def Block.advancesLeft {wT : Nat} (r : Block wT) : Nat := if r.busy then 10 - r.idx.toNat else 0

theorem Block.advancesLeft_of_not_busy (h : r.busy = false) : r.advancesLeft = 0 := by
  simp [Block.advancesLeft, h]

/-- An advance step does one of them (rules R85 to R87). -/
theorem Block.advancesLeft_advance (ha : r.adv = true) (hr : r.advance = .next r') :
    1 + r'.advancesLeft = r.advancesLeft := by
  have hb := (Block.adv_iff.1 ha).1
  rcases Block.advance_cases hr with ⟨hi, -, rfl⟩ | ⟨hi, -, rfl⟩ | ⟨hi, rfl⟩
  · simp only [Block.advancesLeft, scanSame_busy, scanSame_idx, hb, if_true, index_succ_toNat hi]
    omega
  · simp only [Block.advancesLeft, scanChange_busy, scanChange_idx, hb, if_true, index_succ_toNat hi]
    omega
  · rw [Block.advancesLeft_of_not_busy (finalPush_busy r)]
    simp [Block.advancesLeft, hb, hi]

/-- A step that accepts nothing starts no frame operation (rule R84). -/
theorem Block.started_of_not_accepts (h : r.accepts inp = false) : r.started inp = [] := by
  simp [Block.started, Block.startDue, h]

/-- An acceptance with `t != 0` has ten advance steps to do, and one with `t == 0` none (rules R84, R130). -/
theorem Block.advancesLeft_accept (hrst : inp.rst = false) (hacc : r.accepts inp = true) :
    ((r.afterXfer inp).accept inp.inByte inp.inT).advancesLeft = 10 * (r.started inp).length := by
  have hb := (Block.ready_of_accepts hacc).1
  rcases Block.accept_cases (r := r.afterXfer inp) inp.inByte inp.inT with ⟨ht, e⟩ | ⟨ht, e⟩ <;> rw [e]
  · simp [Block.advancesLeft, Block.started, Block.startDue, hb, ht]
  · simp [Block.advancesLeft, Block.started, Block.startDue, hrst, hacc, ht]

/-- A step without a reset takes one advance step off what is left if it advances, and adds ten for the frame operation
it starts. -/
theorem Block.Inv.advancesLeft_moved (h : r.Inv) (hrst : inp.rst = false) :
    (if r.adv then 1 else 0) + (r.moved inp).advancesLeft = r.advancesLeft + 10 * (r.started inp).length := by
  rcases Bool.eq_false_or_eq_true r.adv with ha | ha
  · obtain ⟨r', hr⟩ := Block.advance_answers (h.i2_idx (Block.adv_iff.1 ha).1)
    rw [if_pos ha, Block.moved_of_advance ha hr, Block.advancesLeft_advance ha hr,
      Block.started_of_not_accepts (Block.not_accepts_of_adv ha), List.length_nil, Nat.mul_zero, Nat.add_zero]
  · rw [ha, if_neg Bool.false_ne_true, Nat.zero_add, Block.moved_of_not_adv ha]
    split
    · next hacc =>
      rw [Block.advancesLeft_accept hrst hacc, Block.advancesLeft_of_not_busy (Block.ready_of_accepts hacc).1,
        Nat.zero_add]
    · next hacc =>
      rw [Block.started_of_not_accepts (Bool.eq_false_of_not_eq_true hacc)]
      simp [Block.advancesLeft]

/-- Over steps without a reset, the advance steps done and left are those that were left, and ten for each frame
operation started (rule R98). -/
theorem Block.Inv.runAdvances_advancesLeft (h : r.Inv) (hrst : ∀ i ∈ is, i.rst = false) (n : Nat) :
    Block.runAdvances n r is + (Block.runRegs n r is).advancesLeft =
      r.advancesLeft + 10 * (Block.runStarted n r is).length := by
  induction is generalizing r n with
  | nil => simp [Block.runAdvances, Block.runRegs, Block.runStarted]
  | cons i is ih =>
    obtain ⟨hi, his⟩ := List.forall_mem_cons.1 hrst
    have hstep := h.advancesLeft_moved hi
    have hrest := ih (h.moved i) his (n + 1)
    simp only [Block.runAdvances, Block.runRegs, Block.runStarted, Block.registerTransfer_of_no_reset hi, hi,
      Bool.not_false, Bool.true_and, List.length_append]
    omega

/-- The frame operations started are acceptances (rule R84). -/
theorem Block.runStarted_length_le (n : Nat) (r : Block wT) (is : List (Inputs wT)) :
    (Block.runStarted n r is).length ≤ Block.runAccepts n r is := by
  induction is generalizing r n with
  | nil => rfl
  | cons i is ih =>
    have hrest := ih (n + 1) (r.registerTransfer i n)
    have hfirst : (r.started i).length ≤ if !i.rst && r.accepts i then 1 else 0 := by
      rw [Block.started, Block.startDue]
      cases i.rst <;> cases r.accepts i <;> cases i.inT != 0#wT <;> simp
    rw [Block.runStarted, Block.runAccepts, List.length_append]
    omega

/-- A ready block that is offered `t != 0` starts the frame operation of the command offered (rule R84). -/
theorem Block.started_of_ready (hready : r.inReady = true) (hrst : inp.rst = false) (hvalid : inp.inValid = true)
    (ht : inp.inT ≠ 0#wT) : r.started inp = [(inp.inByte, inp.inT.toNat)] := by
  simp [Block.started, Block.startDue, Block.accepts_of_ready hready hvalid, hrst, ht]

/-- Where a ready block accepts a command with `t != 0` and no other one, ten steps advance the scan until the block is
idle (rule R98). -/
theorem Block.runAdvances_of_one_accept (hready : r.inReady = true) (hfirst : first.rst = false)
    (hvalid : first.inValid = true) (ht : first.inT ≠ 0#wT) (hrst : ∀ i ∈ is, i.rst = false) (n : Nat)
    (hone : Block.runAccepts n r (first :: is) = 1) (hidle : (Block.runRegs n r (first :: is)).idle = true) :
    Block.runAdvances n r (first :: is) = 10 := by
  have hb : r.busy = false := (Block.inReady_iff.1 hready).1
  have hb' : (Block.runRegs n r (first :: is)).busy = false := by simpa using (Bool.and_eq_true_iff.1 hidle).1
  have hcount := (Block.inv_of_not_busy hb).runAdvances_advancesLeft (List.forall_mem_cons.2 ⟨hfirst, hrst⟩) n
  have hle := Block.runStarted_length_le n r (first :: is)
  rw [Block.advancesLeft_of_not_busy hb, Block.advancesLeft_of_not_busy hb'] at hcount
  rw [Block.runStarted, Block.started_of_ready hready hfirst hvalid ht, List.length_append, List.length_singleton]
    at hcount hle
  omega

end

section
variable {wT k : Nat} {m m' : Mach wT} {s s' t : State}

/-! ## A run, over the port samples it meets -/

/-- From `m` to `m'` the machine does in `k` steps without a reset what the registers do over the port samples `is`. -/
structure Mach.RunsOver {wT : Nat} (k : Nat) (m : Mach wT) (is : List (Inputs wT)) (m' : Mach wT) : Prop where
  no_reset : ∀ i ∈ is, i.rst = false
  block_eq : m'.block = Block.runRegs m.stepNo m.block is
  stream_eq : m'.stream = m.stream ++ Block.runReceived m.stepNo m.block is
  accepted_eq : State.acceptedIn k ⟨wT, m⟩ = Block.runStarted m.stepNo m.block is
  accepts_eq : State.acceptsIn k ⟨wT, m⟩ = Block.runAccepts m.stepNo m.block is
  advances_eq : State.advancesIn k ⟨wT, m⟩ = Block.runAdvances m.stepNo m.block is

/-- A run begins with a step, which meets the samples on the ports. -/
theorem Mach.RunsOver.cons {m₁ : Mach wT} {is : List (Inputs wT)} (hrst : m.inputs.rst = false)
    (hstep : step ⟨wT, m⟩ = .next ⟨wT, m₁⟩) (h : m₁.RunsOver k is m') : m.RunsOver (k + 1) (m.inputs :: is) m' := by
  have hblock := step_registerTransfer hstep
  have hstream := (step_streams hstep).1
  obtain ⟨_, e, -, -, hstepNo⟩ := step_environment hstep
  cases e
  have hnow : m₁.stepNo = m.stepNo + 1 := hstepNo
  rw [hrst, if_neg Bool.false_ne_true] at hstream
  obtain ⟨hno, hb, hs, haccepted, haccepts, hadvances⟩ := h
  rw [hblock, hnow] at hb hs haccepted haccepts hadvances
  refine ⟨List.forall_mem_cons.2 ⟨hrst, hno⟩, hb, ?_, ?_, ?_, ?_⟩
  · rw [hs, hstream, List.append_assoc, Block.runReceived]
  · rw [State.acceptedIn_succ hstep, haccepted, Block.runStarted]
  · simp [State.acceptsIn, Block.runAccepts, hstep, haccepts]
  · simp [State.advancesIn, Block.runAdvances, hstep, hadvances]

/-- Every run without a reset is one over port samples. -/
theorem exists_runsOver (k : Nat) : ∀ {m : Mach wT}, State.resetFree k ⟨wT, m⟩ = true →
    core.run k (State.mk wT m) = .next s' →
    ∃ (m' : Mach wT) (is : List (Inputs wT)), s' = ⟨wT, m'⟩ ∧ m.RunsOver k is m' := by
  induction k with
  | zero =>
    intro m _ hrun
    cases hrun
    exact ⟨m, [], rfl, by simp, rfl, by simp [Block.runReceived], rfl, rfl, rfl⟩
  | succ k ih =>
    intro m hfree hrun
    obtain ⟨t, hstep, hrest⟩ := run_succ_eq_next.1 hrun
    obtain ⟨hrst, hfree'⟩ := (State.resetFree_succ hstep).1 hfree
    obtain ⟨m₁, rfl, -⟩ := step_environment hstep
    obtain ⟨m', is, rfl, h⟩ := ih hfree' hrest
    exact ⟨m', _, rfl, h.cons hrst hstep⟩

/-- Over a run without a reset, the stream and what is owed grow by the encodings of the commands accepted (rule
R113). -/
theorem Mach.RunsOver.stream_owed {is : List (Inputs wT)} (h : m.RunsOver k is m') (hinv : m.block.Inv) :
    m'.stream.map BitVec.toNat ++ m'.block.owed =
      m.stream.map BitVec.toNat ++ (m.block.owed ++ encodeAll (State.acceptedIn k ⟨wT, m⟩)) := by
  rw [h.stream_eq, h.block_eq, h.accepted_eq, List.map_append, List.append_assoc,
    hinv.runReceived_owed h.no_reset]

/-- Over a run without a reset, the advance steps done and left are those that were left, and ten for each frame
operation started. -/
theorem Mach.RunsOver.advances {is : List (Inputs wT)} (h : m.RunsOver k is m') (hinv : m.block.Inv) :
    State.advancesIn k ⟨wT, m⟩ + m'.block.advancesLeft =
      m.block.advancesLeft + 10 * (State.acceptedIn k ⟨wT, m⟩).length := by
  rw [h.block_eq, h.accepted_eq, h.advances_eq, hinv.runAdvances_advancesLeft h.no_reset]

/-- The frame operations started in a run are acceptances. -/
theorem Mach.RunsOver.accepted_length_le {is : List (Inputs wT)} (h : m.RunsOver k is m') :
    (State.acceptedIn k ⟨wT, m⟩).length ≤ State.acceptsIn k ⟨wT, m⟩ := by
  rw [h.accepted_eq, h.accepts_eq]
  exact Block.runStarted_length_le _ _ _

/-- Two runs, one after the other. -/
theorem run_add {j : Nat} (hj : core.run j s = .next t) (hk : core.run k t = .next s') :
    core.run (j + k) s = .next s' := by
  induction j generalizing s with
  | zero =>
    cases hj
    rwa [Nat.zero_add]
  | succ j ih =>
    obtain ⟨u, hstep, hrest⟩ := run_succ_eq_next.1 hj
    rw [Nat.add_right_comm, run_succ_eq_next]
    exact ⟨u, hstep, ih hrest⟩

/-! ## A fair consumer (rule R160) -/

/-- A run under R160's premises: no step of it resets and its consumer is fair; and it begins in a block that meets the
invariants. -/
structure State.RunsFairly (s : State) : Prop where
  inv : s.mach.block.Inv
  free : ∀ k, s.resetFree k = true
  fair : s.FairConsumer

/-- What follows a step of such a run is such a run. -/
theorem State.RunsFairly.of_step (h : s.RunsFairly) (hstep : step s = .next t) : t.RunsFairly :=
  ⟨step_keeps_block_inv h.inv hstep, fun k => ((State.resetFree_succ hstep).1 (h.free (k + 1))).2,
    fun k s' hrun => h.fair (k + 1) s' (run_succ_eq_next.2 ⟨t, hstep, hrun⟩)⟩

/-- So is what follows any number of its steps. -/
theorem State.RunsFairly.of_run (h : s.RunsFairly) (hrun : core.run k s = .next s') : s'.RunsFairly := by
  induction k generalizing s with
  | zero =>
    cases hrun
    exact h
  | succ k ih =>
    obtain ⟨t, hstep, hrest⟩ := run_succ_eq_next.1 hrun
    exact ih (h.of_step hstep) hrest

/-- No step of it resets. -/
theorem State.RunsFairly.rst (h : s.RunsFairly) : s.mach.inputs.rst = false := by
  have hfree := h.free 1
  rw [State.resetFree, Bool.and_eq_true_iff] at hfree
  simpa using hfree.1

/-- Fairness as an induction principle: what holds where an offered delay is taken, and before each step in which it is
held, holds wherever a delay is offered (rules R117, R160). -/
theorem State.RunsFairly.offered_induction {P : State → Prop}
    (taken : ∀ s : State, s.RunsFairly → s.mach.block.outv = true → s.mach.inputs.outReady = true → P s)
    (held : ∀ s t : State, s.RunsFairly → s.mach.block.outv = true → s.mach.inputs.outReady = false →
      step s = .next t → P t → P s)
    (h : s.RunsFairly) (hv : s.mach.block.outv = true) : P s := by
  obtain ⟨j, s', hrun, hready'⟩ := h.fair 0 s rfl hv
  induction j generalizing s with
  | zero =>
    cases hrun
    exact taken _ h hv hready'
  | succ j ih =>
    rcases Bool.eq_false_or_eq_true s.mach.inputs.outReady with hready | hready
    · exact taken s h hv hready
    · obtain ⟨t, hstep, hrest⟩ := run_succ_eq_next.1 hrun
      obtain ⟨m₁, hstep', -, -, -, hunready⟩ := transferDeliversOfferedDelay s.wT s.mach h.rst hv
      obtain rfl : t = ⟨s.wT, m₁⟩ := by simpa using hstep.symm.trans hstep'
      exact held s _ h hv hready hstep (ih (h.of_step hstep) (hunready hready).1 hrest)

/-- An offered delay is received next (rules R111, R160). -/
theorem State.RunsFairly.offered_received (h : s.RunsFairly) (hv : s.mach.block.outv = true) :
    ∃ (k : Nat) (s' : State), core.run k s = .next s' ∧
      s'.mach.stream.map BitVec.toNat = s.mach.stream.map BitVec.toNat ++ [s.mach.block.outd.toNat] := by
  refine h.offered_induction
    (P := fun s => ∃ (k : Nat) (s' : State), core.run k s = .next s' ∧
      s'.mach.stream.map BitVec.toNat = s.mach.stream.map BitVec.toNat ++ [s.mach.block.outd.toNat])
    (fun s h hv hready => ?_) (fun s t h hv hready hstep ht => ?_) hv
  · obtain ⟨m₁, hstep, -, -, htaken, -⟩ := transferDeliversOfferedDelay s.wT s.mach h.rst hv
    exact ⟨1, ⟨s.wT, m₁⟩, run_succ_eq_next.2 ⟨_, hstep, rfl⟩, by simp [(htaken hready).2]⟩
  · obtain ⟨m₁, hstep', houtd, -, -, hunready⟩ := transferDeliversOfferedDelay s.wT s.mach h.rst hv
    obtain rfl : t = ⟨s.wT, m₁⟩ := by simpa using hstep.symm.trans hstep'
    obtain ⟨k, s', hrun, hstream⟩ := ht
    exact ⟨k + 1, s', run_succ_eq_next.2 ⟨_, hstep, hrun⟩, by simpa [houtd, (hunready hready).2] using hstream⟩

/-! ## The frame operation under a fair consumer (rule R160) -/

/-- After some number of steps that start no frame operation, the final push of the one in progress is done. -/
def State.EndsFrame (s : State) : Prop :=
  ∃ (k : Nat) (s' : State), core.run k s = .next s' ∧ s.acceptedIn k = [] ∧
    s'.mach.block.busy = false ∧ s'.mach.block.outv = true

/-- A busy block's step starts no frame operation, so that its frame ends as it does after the step. -/
theorem State.EndsFrame.of_step (h : t.EndsFrame) (hbusy : s.mach.block.busy = true) (hstep : step s = .next t) :
    s.EndsFrame := by
  obtain ⟨k, s', hrun, hnone, hend⟩ := h
  refine ⟨k + 1, s', run_succ_eq_next.2 ⟨t, hstep, hrun⟩, ?_, hend⟩
  rw [State.acceptedIn_succ hstep, hnone, Block.started_of_not_accepts (Block.not_accepts_of_busy hbusy),
    List.append_nil]

/-- A busy block with an empty output register scans its next bit, or does the final push (rules R85 to R87). -/
theorem State.RunsFairly.advances (h : s.RunsFairly) (hb : s.mach.block.busy = true)
    (hv : s.mach.block.outv = false) :
    ∃ t, step s = .next t ∧
      (t.mach.block.busy = true ∧ t.mach.block.idx.toNat = s.mach.block.idx.toNat + 1 ∨
        t.mach.block.busy = false ∧ t.mach.block.outv = true) := by
  obtain ⟨r, hr⟩ := Block.advance_answers (h.inv.i2_idx hb)
  refine ⟨_, step_of_advance h.rst (Block.adv_iff.2 ⟨hb, h.inv.i1 hb, hv⟩) hr, ?_⟩
  rcases Block.advance_cases hr with ⟨hi, -, rfl⟩ | ⟨hi, -, rfl⟩ | ⟨-, rfl⟩
  · exact .inl ⟨hb, index_succ_toNat hi⟩
  · exact .inl ⟨hb, index_succ_toNat hi⟩
  · exact .inr ⟨rfl, rfl⟩

/-- A busy block comes to an empty output register with IDX where it is (rules R88, R160). -/
theorem State.RunsFairly.endsFrame_of_emptied {i : Nat} (h : s.RunsFairly) (hb : s.mach.block.busy = true)
    (hi : s.mach.block.idx.toNat = i)
    (hempty : ∀ t : State, t.RunsFairly → t.mach.block.busy = true → t.mach.block.outv = false →
      t.mach.block.idx.toNat = i → t.EndsFrame) : s.EndsFrame := by
  rcases Bool.eq_false_or_eq_true s.mach.block.outv with hv | hv
  · refine h.offered_induction
      (P := fun s => s.mach.block.busy = true → s.mach.block.idx.toNat = i → s.EndsFrame)
      (fun s h hv hready hb hi => ?_) (fun s t h hv hready hstep ht hb hi => ?_) hv hb hi
    · obtain ⟨m₁, hstep, hblock⟩ := scanHoldsWhileOutputFull.1 s.wT s.mach h.rst hb hv
      refine (hempty ⟨s.wT, m₁⟩ (h.of_step hstep) ?_ ?_ ?_).of_step hb hstep
      · rwa [hblock]
      · simp [hblock, hready]
      · rwa [hblock]
    · obtain rfl : t = ⟨s.wT, s.mach.moveOn⟩ := by
        simpa using hstep.symm.trans (step_of_unready h.rst hready hb hv)
      exact (ht hb hi).of_step hb hstep
  · exact hempty s h hb hv hi

/-- Under a fair consumer a frame operation ends, by induction on the bits left to scan (rule R160). -/
theorem State.RunsFairly.endsFrame (h : s.RunsFairly) (hb : s.mach.block.busy = true) : s.EndsFrame := by
  induction hn : 9 - s.mach.block.idx.toNat using Nat.strong_induction_on generalizing s with
  | _ n ih =>
    refine h.endsFrame_of_emptied hb rfl fun t ht hbt hvt hit => ?_
    obtain ⟨u, hstep, ⟨hbu, hiu⟩ | ⟨hbu, hvu⟩⟩ := ht.advances hbt hvt
    · have hu := ht.of_step hstep
      have := hu.inv.i2_idx hbu
      exact (ih _ (by omega) hu hbu rfl).of_step hbt hstep
    · exact State.EndsFrame.of_step ⟨0, u, rfl, rfl, hbu, hvu⟩ hbt hstep

/-- Under a fair consumer the frame operation that a ready block accepts ends: after some number of steps in which no
other one starts, the block is not busy and offers the last delay (rules R84, R160). -/
theorem State.RunsFairly.accepted_ends (h : State.RunsFairly ⟨wT, m⟩) (hready : m.block.inReady = true)
    (hvalid : m.inputs.inValid = true) (ht : m.inputs.inT ≠ 0#wT) :
    ∃ (k : Nat) (m' : Mach wT), core.run (k + 1) (State.mk wT m) = .next (State.mk wT m') ∧
      State.acceptedIn (k + 1) ⟨wT, m⟩ = [(m.inputs.inByte, m.inputs.inT.toNat)] ∧
      m'.block.busy = false ∧ m'.block.outv = true := by
  have hrst : m.inputs.rst = false := h.rst
  obtain ⟨m₁, hstep⟩ := step_answers (h.inv.noRule m.inputs)
  have hb₁ : m₁.block.busy = true := by
    have hdue : m.block.startDue m.inputs = true := by
      simp [Block.startDue, Block.accepts_of_ready hready hvalid, ht]
    rw [step_block_of_no_reset hrst hstep, (Block.busy_rises_iff.2 hdue).2]
  obtain ⟨k, s', hrun, hnone, hend⟩ := (h.of_step hstep).endsFrame hb₁
  have hrun' := run_succ_eq_next.2 ⟨_, hstep, hrun⟩
  obtain ⟨m', -, rfl, -⟩ := exists_runsOver (k + 1) (h.free _) hrun'
  refine ⟨k, m', hrun', ?_, hend⟩
  rw [State.acceptedIn_succ hstep, Block.started_of_ready hready hrst hvalid ht, hnone, List.append_nil]

/-- At a time at which the command on the ports is the only one that has started, the stream and what is owed have grown
by its encoding, and with the block no longer busy ten steps have advanced the scan (rules R98, R113). -/
theorem State.RunsFairly.after_one_command (h : State.RunsFairly ⟨wT, m⟩)
    (hready : m.block.inReady = true) (hrun : core.run k (State.mk wT m) = .next (State.mk wT m'))
    (hone : State.acceptedIn k ⟨wT, m⟩ = [(m.inputs.inByte, m.inputs.inT.toNat)]) :
    m'.stream.map BitVec.toNat ++ m'.block.owed =
        m.stream.map BitVec.toNat ++ (m.block.owed ++ encodeByte m.inputs.inByte m.inputs.inT.toNat) ∧
      (m'.block.busy = false → State.advancesIn k ⟨wT, m⟩ = 10) := by
  obtain ⟨_, is, e, hover⟩ := exists_runsOver k (h.free k) hrun
  cases e
  have hstream := hover.stream_owed h.inv
  have hadvances := hover.advances h.inv
  rw [hone] at hstream hadvances
  refine ⟨by simpa [encodeAll] using hstream, fun hb' => ?_⟩
  rwa [Block.advancesLeft_of_not_busy hb',
    Block.advancesLeft_of_not_busy (Block.inReady_iff.1 hready).1, Nat.zero_add] at hadvances

/-- Where a run accepts no command but that on the ports, no other one starts. -/
theorem State.RunsFairly.acceptedIn_of_one_accept (h : State.RunsFairly ⟨wT, m⟩) (hready : m.block.inReady = true)
    (hvalid : m.inputs.inValid = true) (ht : m.inputs.inT ≠ 0#wT)
    (hrun : core.run (k + 1) (State.mk wT m) = .next s') (hone : State.acceptsIn (k + 1) ⟨wT, m⟩ ≤ 1) :
    State.acceptedIn (k + 1) ⟨wT, m⟩ = [(m.inputs.inByte, m.inputs.inT.toNat)] := by
  obtain ⟨m', is, rfl, hover⟩ := exists_runsOver (k + 1) (h.free _) hrun
  obtain ⟨t, hstep, -⟩ := run_succ_eq_next.1 hrun
  have hle := hover.accepted_length_le.trans hone
  rw [State.acceptedIn_succ hstep, Block.started_of_ready hready h.rst hvalid ht] at hle ⊢
  have hnone : State.acceptedIn k t = [] := List.eq_nil_of_length_eq_zero (by simpa using hle)
  rw [hnone, List.append_nil]

/-- Under a fair consumer the delays of the command that a ready block accepts are received, after the one still offered
(rules R80, R160). -/
theorem State.RunsFairly.accepted_received (h : State.RunsFairly ⟨wT, m⟩) (hready : m.block.inReady = true)
    (hvalid : m.inputs.inValid = true) (ht : m.inputs.inT ≠ 0#wT) :
    ∃ (k : Nat) (m' : Mach wT), core.run (k + 1) (State.mk wT m) = .next (State.mk wT m') ∧
      m'.stream.map BitVec.toNat =
        m.stream.map BitVec.toNat ++ (m.block.owed ++ encodeByte m.inputs.inByte m.inputs.inT.toNat) := by
  obtain ⟨k, m₁, hrun, hone, hb, hv⟩ := h.accepted_ends hready hvalid ht
  obtain ⟨j, s', hrest, hstream⟩ := (h.of_run hrun).offered_received hv
  have hall := Nat.add_right_comm k 1 j ▸ run_add hrun hrest
  obtain ⟨m', -, rfl, -⟩ := exists_runsOver (k + j + 1) (h.free _) hall
  refine ⟨k + j, m', hall, hstream.trans ?_⟩
  rw [← (h.after_one_command hready hrun hone).1, Block.owed_of_outv hv, Block.toEmit_of_not_busy hb]

end

/-! ## The obligations -/

/-- Settles O53: with the final push done, the last delay is still offered, so that at most `n(b)` have been received;
the consumer then takes it, and where no other command was accepted nothing more is owed. -/
theorem fairConsumerEndsFrame : Obligations.FairConsumerEndsFrame := by
  intro wT m hbusy hfault hvalid ht hfree hfair
  have hready : m.block.inReady = true := Block.inReady_iff.2 ⟨hbusy, hfault⟩
  have h : State.RunsFairly ⟨wT, m⟩ := ⟨Block.inv_of_not_busy hbusy, hfree, hfair⟩
  obtain ⟨j, m₂, hrun₂, hstream₂⟩ := h.accepted_received hready hvalid ht
  refine ⟨?_, ⟨j + 1, m₂, hrun₂, ?_⟩, fun hone => ⟨j + 1, m₂, j.succ_pos, hrun₂, ?_⟩⟩
  · obtain ⟨k, m₁, hrun, hone, hb, hv⟩ := h.accepted_ends hready hvalid ht
    obtain ⟨hstream, hadvances⟩ := h.after_one_command hready hrun hone
    refine ⟨k + 1, m₁, k.succ_pos, hrun, hb, hadvances hb, ?_⟩
    have hlength := congrArg List.length hstream
    have := m.block.outv.toNat_le
    simp only [List.length_append, List.length_map, Block.owed_length_of_not_busy hb, hv, Bool.toNat_true,
      Block.owed_length_of_not_busy hbusy, encodeByte_length _ (bitTime_pos ht)] at hlength
    omega
  · rw [hstream₂, Block.owed, Block.toEmit_of_not_busy hbusy, List.append_nil, List.append_assoc]
  · have haccepted := h.acceptedIn_of_one_accept hready hvalid ht hrun₂ (hone _)
    have hall := (h.after_one_command hready hrun₂ haccepted).1
    rw [hstream₂] at hall
    exact Block.idle_of_owed_nil (List.append_right_eq_self.1 hall)

/-- Settles O30: a busy block's step reads `rst` and `out_ready` only, and both samples are used up alike. -/
theorem operandsAreLatched : Obligations.OperandsAreLatched := by
  intro wT m i j rest hbusy hrst hready
  rw [step_of_busy (m := { m with script := i :: rest }) hbusy,
    step_of_busy (m := { m with script := j :: rest }) hbusy]
  simp only [Mach.inputs_of_script, Block.xfer, hrst, hready]
  rfl

/-- Settles O50: the frame operation is received and ends, and the advance steps done are the ten that its acceptance
added. -/
theorem frameOperationRunsToEnd : Obligations.FrameOperationRunsToEnd := by
  intro wT n r first rest hbusy hfault hfirst hvalid ht hrst hneed
  have hready : r.inReady = true := Block.inReady_iff.2 ⟨hbusy, hfault⟩
  obtain ⟨more, hreceived, hend⟩ := Block.frame_runs_to_end hready hfirst hvalid ht hrst
    (by cases hv : r.outv <;> simpa [hv] using hneed) n
  refine ⟨more, ?_, fun hone => ?_⟩
  · rw [hreceived, Block.owed, Block.toEmit_of_not_busy hbusy, List.append_nil]
  · obtain ⟨hmore, hidle, -⟩ := hend hone
    exact ⟨hmore, Block.runAdvances_of_one_accept hready hfirst hvalid ht hrst n hone hidle, hidle⟩

/-- Settles O25: the reset step clears BUSY and OUTV, so that nothing is left to emit and nothing is owed. -/
theorem resetAbandonsFrame : Obligations.ResetAbandonsFrame :=
  fun _ _ hrst => ⟨_, step_reset hrst, rfl, rfl, rfl, rfl, rfl, Block.toEmit_of_not_busy rfl, Block.owed_of_idle rfl⟩

/-- Settles O54: both an idle block and a program at its end have OUTV = 0. -/
theorem heldRunIsNotFinished : Obligations.HeldRunIsNotFinished := by
  intro wT m hv
  constructor
  · simp [Block.idle, hv]
  · by_contra hended
    obtain ⟨p, -, -, hend⟩ := Mach.programEnded_iff.1 (Bool.eq_true_of_not_eq_false hended)
    exact Bool.false_ne_true (hend.outv.symm.trans hv)

end Sys2Proof.Machine
end

section
/-! PROOFS. The remaining statements, in three parts: what a step keeps and where it stops (10_state.md rule R29,
40_encode.md rule R92, U10); the laws of the reference function (R82, R83, R91, R94, R96, R97, R114, R115); and a frame
as a whole: its emitted delays (R29: I5) and its step count (R102).

A scan at bit time `t` is the scan at bit time 1, times `t`, and the scan at bit time 1 is the run-length encoding; the
laws of single delays are read off these two. A byte's level changes are an odd number of nine places, so that the
delay counts are distributed as binomial coefficients. The run in ACC is the run that ends at IDX, as a function of the
frame, so that I5 is an induction on IDX. An isolated frame's steps are counted by a measure that each of them lowers by
one. -/

namespace Sys2Proof.Machine

section
variable {wT : Nat} {r : Block wT} {inp : Inputs wT} {m : Mach wT} {s s' : State}

/-! ## What a step keeps, and where it stops (rules R29, R34, U10) -/

/-- A step keeps the width (rule R8). -/
theorem step_wT (h : step s = .next s') : s'.wT = s.wT := by
  obtain ⟨wT, m⟩ := s
  obtain ⟨m', rfl, -⟩ := step_environment h
  rfl

/-- The step without a rule is an advance step with IDX of at least 10 (U10). -/
theorem Block.noRule_iff :
    r.noRule inp = true ↔
      inp.rst = false ∧ r.busy = true ∧ r.fault = false ∧ r.outv = false ∧ 10 ≤ r.idx.toNat := by
  simp only [Block.noRule, Bool.and_eq_true, Bool.not_eq_true', Block.adv_iff, decide_eq_true_eq, and_assoc,
    Nat.succ_le_iff]

/-- The step without a rule stops the machine (U10; log entry 7). -/
theorem step_of_noRule (h : m.block.noRule m.inputs = true) : step ⟨wT, m⟩ = .fault .indexOutOfRange := by
  obtain ⟨hrst, hb, hf, hv, hi⟩ := Block.noRule_iff.1 h
  have hstop : m.block.advance = .fault .indexOutOfRange := by
    rw [Block.advance, if_neg (by omega), if_neg (by omega)]
  rw [step_advance hrst (Block.adv_iff.2 ⟨hb, hf, hv⟩), hstop]
  rfl

/-- ENCODE with a bit time other than 0 starts a frame operation in a ready block (rule R84). -/
theorem exec_encode_of_ready {b : Byte} {t : Nat} (hready : m.block.inReady = true) (hpos : 0 < t) (hlt : t < 2 ^ wT) :
    exec (.encode b t) ⟨wT, m⟩ =
      .next ⟨wT, { m with block := m.block.startFrame b (BitVec.ofNat wT t) }⟩ := by
  rw [exec_encode b m hlt, if_pos hready, Mach.onBlock,
    Block.accept_of_ne (ofNat_bitTime_ne_zero hlt hpos.ne')]

/-! ## A command word that is placed (log entry 9) -/

/-- A command word of the machine is offered in the coming step. -/
theorem withFetchWord_word {w : Nat} (hw : w < 2 ^ (wT + 8)) :
    State.withFetchWord ⟨wT, m⟩ (wT + 8) w = ⟨wT, m.offerNext (BitVec.ofNat (wT + 8) w)⟩ := by
  rw [State.withFetchWord, State.placeWord, decodeBits_eq_ok.2 ⟨rfl, hw, rfl⟩]

/-- The word on the ports after `offerNext` is the word offered (rule R60). -/
theorem Mach.offerNext_word (w : CommandWord wT) : (m.offerNext w).inputs.word = w := commandWord_fields w

/-! ## The accumulator (rule R92) -/

/-- The run in ACC lasts at most nine bit times (I3, I4). -/
theorem Block.Inv.acc_le (h : r.Inv) (hb : r.busy = true) : r.acc.toNat ≤ 9 * r.t.toNat := by
  obtain ⟨k, hrun⟩ := h.i3_i4 hb
  rw [hrun.acc_eq]
  exact Nat.mul_le_mul_right _ hrun.le_nine

/-- Ten bit times still fit the `W_T + 4` bits of ACC, so that one more than the run's nine does not wrap. -/
theorem Block.scanSame_acc_toNat_of_le (h : r.acc.toNat ≤ 9 * r.t.toNat) :
    r.scanSame.acc.toNat = r.acc.toNat + r.t.toNat := by
  have hfits : r.acc.toNat + r.t.toNat < 2 ^ (wT + 4) := by
    have := r.t.isLt
    rw [pow_add]
    omega
  rw [Block.scanSame_acc, BitVec.toNat_add, zextDelay_toNat, Nat.mod_eq_of_lt hfits]

end

/-! ## The obligations on single steps -/

/-- Settles O33: a step keeps the width, and its registers are the register transfer's, which keeps their invariants. -/
theorem stepKeepsInv : Obligations.StepKeepsInv := by
  intro s s' hinv hstep
  refine ⟨?_, step_keeps_block_inv hinv.regs hstep⟩
  rw [step_wT hstep]
  exact hinv.width

/-- Settles O46: an advance, a transfer and an acceptance each conserve what is received and owed. -/
theorem stepDeliversWhatIsOwed : Obligations.StepDeliversWhatIsOwed := by
  intro wT r inp n hinv hrst
  rw [Block.registerTransfer_of_no_reset hrst]
  exact hinv.received_owed_moved hrst

/-- Settles O47: the step's registers and stream are those of the register transfer, which conserves what is owed. -/
theorem stepKeepsStreamTracked : Obligations.StepKeepsStreamTracked :=
  fun _ _ _ hinv htracks hrst hstep => htracks.step hinv.regs hrst hstep

/-- Settles O12: a started frame takes OUTV, OUTD and FAULT from the block before, and nothing else. -/
theorem earlierFramesLeaveNoTrace : Obligations.EarlierFramesLeaveNoTrace := by
  intro wT b t m₁ m₂ hpos hlt hbusy₁ hfault₁ hbusy₂ hfault₂ houtv houtd
  refine ⟨_, _, exec_encode_of_ready (Block.inReady_iff.2 ⟨hbusy₁, hfault₁⟩) hpos hlt,
    exec_encode_of_ready (Block.inReady_iff.2 ⟨hbusy₂, hfault₂⟩) hpos hlt, ?_⟩
  rw [Block.startFrame_eq, Block.startFrame_eq, houtv, houtd, hfault₁, hfault₂]

/-- Settles O27: a step without a rule is that fault, and every other step answers next. -/
theorem stepStopsOnlyOutsideIndexRange : Obligations.StepStopsOnlyOutsideIndexRange := by
  intro wT m
  rw [← Block.noRule_iff]
  rcases Bool.eq_false_or_eq_true (m.block.noRule m.inputs) with h | h
  · have hstep := step_of_noRule h
    refine ⟨⟨fun _ => h, fun _ => ⟨_, hstep⟩⟩, fun f hf => ?_, fun x hx => ?_⟩
    · exact Host.Outcome.fault.inj (hf.symm.trans hstep)
    · cases hstep.symm.trans hx
  · obtain ⟨m', hstep⟩ := step_answers h
    simp [hstep, h]

/-- Settles O15: the block is made ready and the word's fields are on the ports, so that the step runs its command. -/
theorem placedWordRunsNext : Obligations.PlacedWordRunsNext := by
  intro wT m w hw
  refine ⟨decode (BitVec.ofNat (wT + 8) w), decodeBits_eq_ok.2 ⟨rfl, hw, rfl⟩, encode_decode _, ?_⟩
  rw [withFetchWord_word hw, step_offered rfl rfl rfl, Mach.offerNext_word]
  rfl

/-- Settles O36: the run in ACC lasts at most nine bit times, and ten of them fit ACC. -/
theorem accumulatorNeverWraps : Obligations.AccumulatorNeverWraps := by
  intro wT r hinv hbusy
  have ht := r.t.isLt
  have hacc := hinv.acc_le hbusy
  refine ⟨hacc, by omega, ?_, Block.scanSame_acc_toNat_of_le hacc⟩
  rw [pow_add]
  omega

section
variable {t d k : Nat} {b : Byte} {l : Level} {vs : List Bool}

/-! ## The scan as run-length encoding (rules R82, R83, R91) -/

/-- A scan's delays are multiples of the bit time: those of the scan at bit time 1 (rule R91). -/
theorem scan_mul (t : Nat) (vs : List Bool) (l : Level) (k : Nat) :
    scan t vs l (k * t) = (scan 1 vs l k).map (· * t) := by
  induction vs generalizing l k with
  | nil => rfl
  | cons v vs ih =>
    rw [scan, scan]
    split
    · rw [← Nat.succ_mul, ih]
    · have hfirst := ih (!l) 1
      rw [Nat.one_mul] at hfirst
      rw [List.map_cons, hfirst]

/-- An encoding is that at bit time 1, times the bit time. -/
theorem encodeByte_eq_map (b : Byte) (ht : 1 ≤ t) : encodeByte b t = (encodeByte b 1).map (· * t) := by
  have hscan := scan_mul t (scanOrder (frameWord b)) false 1
  rwa [Nat.one_mul, ← encodeByte_eq_scan b ht, ← encodeByte_eq_scan b le_rfl] at hscan

/-- A list of equal bits is one run. -/
theorem splitBy_replicate (hk : 1 ≤ k) (l : Level) :
    (List.replicate k l).splitBy (· == ·) = [List.replicate k l] :=
  List.splitBy_of_isChain (by simp; omega) (List.isChain_replicate_of_rel k (by simp))

/-- A run that the next bit ends (rule R83). -/
theorem runLengths_replicate_cons (hk : 1 ≤ k) (l : Level) (vs : List Bool) :
    runLengths (List.replicate k l ++ (!l) :: vs) = k :: runLengths ((!l) :: vs) := by
  have hend : ∀ x ∈ (List.replicate k l).getLast?, (x == !l) = false := by
    intro x hx
    rw [List.eq_of_mem_replicate (List.mem_of_getLast? hx)]
    cases l <;> rfl
  simp [runLengths, List.splitBy_append_cons vs hend, splitBy_replicate hk]

/-- The scan at bit time 1 gives the lengths of the runs of the bits scanned, the first of which is in the accumulator
(rules R82, R83). -/
theorem scan_one_eq_runLengths (hk : 1 ≤ k) (l : Level) (vs : List Bool) :
    scan 1 vs l k = runLengths (List.replicate k l ++ vs) := by
  induction vs generalizing l k with
  | nil => simp [scan, runLengths, splitBy_replicate hk]
  | cons v vs ih =>
    rw [scan]
    split
    · next hv => rw [ih (Nat.le_add_left 1 k), hv, List.replicate_succ', List.append_assoc, List.singleton_append]
    · next hv => rw [Bool.eq_not_of_ne hv, runLengths_replicate_cons hk, ih le_rfl]; rfl

/-- Every delay of a scan at bit time 1 lasts at least one bit. -/
theorem one_le_of_mem_scan (hk : 1 ≤ k) (hd : d ∈ scan 1 vs l k) : 1 ≤ d := by
  induction vs generalizing l k with
  | nil => rwa [List.mem_singleton.1 hd]
  | cons v vs ih =>
    rw [scan] at hd
    split at hd
    · exact ih (Nat.le_add_left 1 k) hd
    · rcases List.mem_cons.1 hd with rfl | hd
      · exact hk
      · exact ih le_rfl hd

/-- Where the bits scanned are not all at the first level, no run takes all of them. -/
theorem lt_of_mem_scan (hk : 1 ≤ k) (hvs : (!l) ∈ vs) (hd : d ∈ scan 1 vs l k) : d < k + vs.length := by
  induction vs generalizing l k with
  | nil => cases hvs
  | cons v vs ih =>
    rw [scan] at hd
    rw [List.length_cons]
    split at hd
    · next hv =>
      subst hv
      have := ih (Nat.le_add_left 1 k) (by simpa using hvs) hd
      omega
    · rcases List.mem_cons.1 hd with rfl | hd
      · omega
      · have hle : d ≤ (scan 1 vs (!l) 1).sum := List.le_sum_of_mem hd
        rw [scan_sum] at hle
        omega

/-! ## The number of delays (rule R94) -/

/-- A byte's delays are even in number, none for `t = 0` (rules R90, R95). -/
theorem encodeByte_length_even (b : Byte) (t : Nat) : (encodeByte b t).length % 2 = 0 := by
  rcases Nat.eq_zero_or_pos t with rfl | ht
  · rfl
  · exact (delaysAlternateLevels b t ht).2

/-- A bit of `V xor (V << 1)`: does the level change at the frame position that the bit is scanned for (rule R94)? -/
theorem levelChange_bit (v : FrameWord) {j : Nat} (hj : j < 9) :
    ((v ^^^ (v <<< 1)) &&& (0x1FF : FrameWord)).getLsbD j = (framePos v (j + 1) != framePos v j) := by
  have hmask : (0x1FF : FrameWord).getLsbD j = true := by
    revert j; decide
  rw [BitVec.getLsbD_and, hmask, Bool.and_true, BitVec.getLsbD_xor, BitVec.getLsbD_shiftLeft]
  cases j with
  | zero => simp [framePos, Config.startBit]
  | succ j => simp [framePos, hj]

/-- The number of delays in closed form (rule R94). -/
theorem delayCount_eq_popcount (b : Byte) :
    delayCount b = 1 + popcount ((frameWord b ^^^ (frameWord b <<< 1)) &&& (0x1FF : FrameWord)) := by
  rw [delayCount, popcount]
  congr 1
  exact List.countP_congr fun j hj => by rw [levelChange_bit _ (List.mem_range.1 hj)]

/-- There are at most nine level changes, and an even number of delays (rules R94, R95). -/
theorem delayCount_mem (b : Byte) : delayCount b ∈ [2, 4, 6, 8, 10] := by
  have heven := encodeByte_length_even b 1
  rw [encodeByte_length b le_rfl] at heven
  have hle : (List.range 9).countP (fun j => framePos (frameWord b) (j + 1) != framePos (frameWord b) j) ≤ 9 :=
    List.countP_le_length
  rw [delayCount] at heven ⊢
  simp only [List.mem_cons, List.not_mem_nil, or_false]
  omega

/-! ## The first and the last delay (rules R96, R97) -/

/-- The scanned bits are the byte's and then the stop bit (rule R61). -/
theorem scanOrder_frameWord (b : Byte) : scanOrder (frameWord b) = byteBits b ++ [true] :=
  (List.cons.inj (frameBits_eq b)).2.symm

/-- A scan's first delay is the accumulator and the bits that go on at its level. -/
theorem scan_head? (t : Nat) (vs : List Bool) (l : Level) (acc : Nat) :
    (scan t vs l acc).head? = some (acc + (vs.takeWhile (· == l)).length * t) := by
  induction vs generalizing acc with
  | nil => simp [scan]
  | cons v vs ih =>
    rw [scan]
    split
    · next hv =>
      rw [ih, List.takeWhile_cons_of_pos (p := (· == l)) (beq_iff_eq.2 hv), List.length_cons, Nat.succ_mul]
      congr 1
      omega
    · next hv => simp [hv]

/-- One bit more: it extends the last run, or begins one. -/
theorem scan_append_getLast? (t : Nat) (vs : List Bool) (v : Bool) (l : Level) (acc : Nat) :
    (scan t (vs ++ [v]) l acc).getLast? =
      if v = vs.getLastD l then (scan t vs l acc).getLast?.map (· + t) else some t := by
  induction vs generalizing l acc with
  | nil => by_cases hv : v = l <;> simp [scan, hv]
  | cons u us ih =>
    rw [List.cons_append, scan, scan, List.getLastD_cons]
    split
    · next hu => rw [ih, hu]
    · next hu =>
      have hcons : ∀ ws, (acc :: scan t ws (!l) t).getLast? = (scan t ws (!l) t).getLast? := fun ws => by
        obtain ⟨d, ds, e⟩ := List.exists_cons_of_ne_nil (scan_ne_nil t ws (!l) t)
        rw [e, List.getLast?_cons_cons]
      rw [hcons, hcons, ih, Bool.eq_not_of_ne hu]

/-- A scan from level 0 whose last bit is a one ends with the run of its last ones. -/
theorem scan_getLast? (t : Nat) (vs : List Bool) (acc : Nat) :
    (scan t (vs ++ [true]) false acc).getLast? = some ((1 + (vs.reverse.takeWhile (fun v => v)).length) * t) := by
  induction vs using List.reverseRecOn with
  | nil => simp [scan]
  | append_singleton vs v ih =>
    rw [scan_append_getLast?, List.getLastD_concat, List.reverse_concat]
    cases v with
    | false => simp
    | true => rw [if_pos rfl, ih]; simp [Nat.add_mul]; omega

/-- A byte of zeros has eight low zeros, so that R96's two cases are one. -/
theorem lowZeros_cases (b : Byte) : (if b = 0x00 then 9 else 1 + lowZeros b) = 1 + lowZeros b := by
  split
  · next h => subst h; rfl
  · rfl

/-- A byte of ones has eight high ones, so that R97's two cases are one. -/
theorem highOnes_cases (b : Byte) : (if b = 0xFF then 9 else 1 + highOnes b) = 1 + highOnes b := by
  split
  · next h => subst h; rfl
  · rfl

/-! ## How many bytes have each number of delays (rule R94) -/

/-- The numbers below `2 * m` are those with the lowest bit `v`, and those with the other one, each for a number below
`m`. -/
theorem countP_range_two_mul (p : Nat → Bool) (v : Bool) (m : Nat) :
    (List.range (2 * m)).countP p =
      (List.range m).countP (fun x => p (Nat.bit v x)) + (List.range m).countP (fun x => p (Nat.bit (!v) x)) := by
  induction m with
  | zero => rfl
  | succ m ih =>
    rw [Nat.mul_succ, List.range_succ, List.range_succ, List.range_succ]
    simp only [List.countP_append, List.countP_singleton, ih]
    cases v
    · rw [Nat.bit_false_apply, Bool.not_false, Nat.bit_true_apply]; ring
    · rw [Nat.bit_true_apply, Bool.not_true, Nat.bit_false_apply]; ring

/-- The bits of a number, the lowest one first. -/
theorem map_testBit_bit (v : Bool) (x n : Nat) :
    (List.range (n + 1)).map (Nat.bit v x).testBit = v :: (List.range n).map x.testBit := by
  simp [List.range_succ_eq_map, Function.comp_def, Nat.testBit_bit_succ]

/-- Of the scans of `n` bits and a stop bit, those with `d` delays before the last one are as many as the choices of `d`
level changes in the `n + 1` places, where `d` is odd if the scan begins at level 0, and even if at level 1. -/
theorem countP_scan_length (t n : Nat) (l : Level) (acc d : Nat) :
    (List.range (2 ^ n)).countP
        (fun x => (scan t ((List.range n).map x.testBit ++ [true]) l acc).length == d + 1) =
      if d % 2 = (!l).toNat then (n + 1).choose d else 0 := by
  induction n generalizing l acc d with
  | zero =>
    rcases d with _ | _ | d <;> cases l <;> simp [scan, Nat.choose_eq_zero_of_lt]
  | succ n ih =>
    rw [Nat.pow_succ', countP_range_two_mul _ l]
    simp only [map_testBit_bit, List.cons_append, scan, if_true, Bool.not_eq_self, if_false, List.length_cons, ih]
    cases d with
    | zero => simp [scan_ne_nil]
    | succ d =>
      have htail : ∀ x : Nat, (x + 1 == d + 1 + 1) = (x == d + 1) := fun x => by simp
      have hparity : d % 2 = (!!l).toNat ↔ (d + 1) % 2 = (!l).toNat := by cases l <;> simp <;> omega
      simp only [htail, ih, hparity, Nat.choose_succ_succ' (n + 1) d]
      split
      · exact Nat.add_comm _ _
      · rfl

/-- A byte's bits are those of the number it is given as. -/
theorem byteBits_ofNat (x : Nat) : byteBits (BitVec.ofNat 8 x) = (List.range 8).map x.testBit :=
  List.map_congr_left fun j hj => by
    have hlt : j < 8 := List.mem_range.1 hj
    rw [BitVec.getLsbD_ofNat, decide_eq_true hlt, Bool.true_and]

/-- The bytes with `d` level changes are the choices of an odd number of the nine places (rule R94). -/
theorem countP_encodeByte_length {t : Nat} (ht : 1 ≤ t) (d : Nat) :
    ((List.range 256).map (BitVec.ofNat 8)).countP (fun b => (encodeByte b t).length == d + 1) =
      if d % 2 = 1 then Nat.choose 9 d else 0 := by
  simp only [List.countP_map, Function.comp_def, encodeByte_eq_scan _ ht, scanOrder_frameWord, byteBits_ofNat]
  exact countP_scan_length t 8 false t d

/-! ## Encodings one after another (rules R113 to R115) -/

/-- After an even number of delays the level is as before. -/
theorem waveform_append (l : Level) (ds es : List Nat) :
    waveform l (ds ++ es) = waveform l ds ++ waveform (if ds.length % 2 = 0 then l else !l) es := by
  induction ds generalizing l with
  | nil => rfl
  | cons d ds ih =>
    rw [List.cons_append, waveform, waveform, ih, List.append_assoc, List.length_cons]
    congr 3
    rcases Nat.mod_two_eq_zero_or_one ds.length with h | h <;> simp [h, Nat.add_mod]

/-- A byte's delays hold its frame, for `t = 0` too, in no time (rules R90, R95; log entry 14). -/
theorem waveform_encodeByte (b : Byte) (t : Nat) : waveform false (encodeByte b t) = frameWaveform b t := by
  rcases Nat.eq_zero_or_pos t with rfl | ht
  · simp [encodeByte, waveform, frameWaveform]
  · exact (delaysAlternateLevels b t ht).1

/-- A byte's delays sum to ten bit times, for `t = 0` too (rules R90, R93; log entry 14). -/
theorem encodeByte_sum (b : Byte) (t : Nat) : (encodeByte b t).sum = 10 * t := by
  rcases Nat.eq_zero_or_pos t with rfl | ht
  · rfl
  · exact encodingSumsToTenBitTimes b t ht

/-- The commands' encodings, the first one first. -/
theorem encodeAll_cons (c : Byte × Nat) (cmds : List (Byte × Nat)) :
    encodeAll (c :: cmds) = encodeByte c.1 c.2 ++ encodeAll cmds := List.flatMap_cons

/-- The totals of the bytes survive concatenation (rule R114). -/
theorem encodeAll_sum (cmds : List (Byte × Nat)) :
    (encodeAll cmds).sum = 10 * (cmds.map (fun c => c.2)).sum := by
  induction cmds with
  | nil => rfl
  | cons c cmds ih =>
    rw [encodeAll_cons, List.sum_append, encodeByte_sum, ih, List.map_cons, List.sum_cons, Nat.mul_add]

end

/-! ## The obligations on the reference function and the stream -/

/-- Settles O39: the scan at bit time 1 gives the lengths of the frame's runs, and the bit time is a factor. -/
theorem encodingIsRunLengths : Obligations.EncodingIsRunLengths := by
  intro b t ht
  rw [encodeByte_eq_map b ht, encodeByte_eq_scan b le_rfl, scan_one_eq_runLengths le_rfl, frameBits_eq]
  rfl

/-- Settles O40: at bit time 1 every delay is at least 1, and of the frame's ten bits the stop bit is not at the start
bit's level. -/
theorem delaysAreOneToNineBitTimes : Obligations.DelaysAreOneToNineBitTimes := by
  intro b t d ht hd
  rw [encodeByte_eq_map b ht, encodeByte_eq_scan b le_rfl] at hd
  obtain ⟨k, hk, rfl⟩ := List.mem_map.1 hd
  have hstop : true ∈ scanOrder (frameWord b) := by simp [scanOrder_frameWord]
  have hlt : k < 1 + 9 := lt_of_mem_scan le_rfl hstop hk
  exact ⟨k, one_le_of_mem_scan le_rfl hk, by omega, rfl⟩

/-- Settles O41: the count is that of the level changes, of which a byte has an odd number in nine places. -/
theorem delayCountsAreExact : Obligations.DelayCountsAreExact := by
  intro t ht
  refine ⟨fun b => ⟨encodeByte_length b ht, delayCount_eq_popcount b, delayCount_mem b⟩, ?_⟩
  rw [show [2, 4, 6, 8, 10] = [1, 3, 5, 7, 9].map (· + 1) from rfl, List.map_map]
  simp only [Function.comp_def, countP_encodeByte_length ht]
  rfl

/-- Settles O42: the first delay is the start bit and the zeros after it, which the stop bit ends at the latest. -/
theorem firstDelayCountsLowZeros : Obligations.FirstDelayCountsLowZeros := by
  intro b t ht
  have hzeros : (scanOrder (frameWord b)).takeWhile (· == false) = (byteBits b).takeWhile (fun v => !v) := by
    simpa [scanOrder_frameWord, List.takeWhile_append] using
      fun h => ((List.takeWhile_prefix _).eq_of_length h).symm
  rw [encodeByte_eq_scan b ht, scan_head?, hzeros, lowZeros_cases, Nat.add_mul, Nat.one_mul, lowZeros]

/-- Settles O43: the last delay is the stop bit and the ones before it, which the start bit ends at the latest. -/
theorem lastDelayCountsHighOnes : Obligations.LastDelayCountsHighOnes := by
  intro b t ht
  rw [encodeByte_eq_scan b ht, scanOrder_frameWord, scan_getLast?, highOnes_cases, highOnes]

/-- Settles O45, by induction on the commands: each encoding is even in length, so that the next one begins at level 0
again. -/
theorem levelsCarryAcrossBytes : Obligations.LevelsCarryAcrossBytes := by
  intro cmds
  induction cmds with
  | nil => rfl
  | cons c cmds ih =>
    rw [encodeAll_cons, waveform_append, if_pos (encodeByte_length_even c.1 c.2), waveform_encodeByte, ih,
      List.flatMap_cons]

/-- Settles O49: the stream of an idle block is the concatenation of the encodings, each of which sums to ten bit
times. -/
theorem streamTotalsArePerByte : Obligations.StreamTotalsArePerByte := by
  intro k s s' hidle hstream hfree hrun hidle'
  rw [(streamIsConcatenation k s s' hidle hstream hfree hrun).2 hidle', encodeAll_sum]
  exact ⟨rfl, fun c _ => encodeByte_sum c.1 c.2⟩

section
variable {wT k i : Nat} {r : Block wT} {f : Nat → Bool}

/-! ## The emitted delays (rule R29: I5) -/

/-- The length of the run of equal bits that ends at position `i` and begins at position 0 at the earliest.
`Block.RunOf.eq_runEnding` ties it to the run in ACC. -/
def runEnding (f : Nat → Bool) : Nat → Nat
  | 0 => 1
  | i + 1 => if f (i + 1) = f i then runEnding f i + 1 else 1

/-- A maximal run that ends at position `i` is the one. -/
theorem eq_runEnding_of_maximal (hpos : 1 ≤ k) (hfits : k ≤ i + 1) (hsame : ∀ j, j ≤ i → i < j + k → f j = f i)
    (hmax : k ≤ i → f (i - k) ≠ f i) : k = runEnding f i := by
  induction i generalizing k with
  | zero => rw [runEnding]; omega
  | succ i ih =>
    rw [runEnding]
    split
    · next hf =>
      obtain ⟨k, rfl⟩ := Nat.exists_eq_add_of_le' hpos
      rw [Nat.add_sub_add_right, hf] at hmax
      have hk : 1 ≤ k := by
        by_contra hk
        obtain rfl : k = 0 := by omega
        exact hmax (by omega) rfl
      rw [ih hk (by omega) (fun j hj hjk => (hsame j (by omega) (by omega)).trans hf) fun hle => hmax (by omega)]
    · next hf =>
      by_contra hk
      exact hf (hsame i (by omega) (by omega)).symm

/-- The run in ACC is the frame's run that ends at position IDX (I3, I4). -/
theorem Block.RunOf.eq_runEnding (h : r.RunOf k) : k = runEnding (framePos r.frame) r.idx.toNat :=
  eq_runEnding_of_maximal h.pos h.fits (fun j hj hjk => (h.same j hj hjk).trans h.framePos_idx.symm)
    (fun hle => (h.maximal hle).trans_eq h.framePos_idx.symm)

/-- A scan of `n` bits, taken up after `i` of them: the run that ends at position `i` is in the accumulator, and the
delays emitted last the positions before it (rules R82, R98). -/
theorem scan_taken_up (t : Nat) {n : Nat} (f : Nat → Bool) (hi : i ≤ n) :
    ∃ emitted,
      scan t ((List.range n).map (fun j => f (j + 1))) (f 0) t =
        emitted ++ scan t (((List.range n).map (fun j => f (j + 1))).drop i) (f i) (runEnding f i * t) ∧
      emitted.sum + runEnding f i * t = (i + 1) * t := by
  induction i with
  | zero => exact ⟨[], by simp [runEnding], by simp [runEnding]⟩
  | succ i ih =>
    obtain ⟨emitted, hscan, hsum⟩ := ih (by omega)
    have hlen : i < ((List.range n).map (fun j => f (j + 1))).length := by simp; omega
    rw [List.drop_eq_getElem_cons hlen, List.getElem_map, List.getElem_range, scan] at hscan
    rw [runEnding]
    split at hscan
    · next hf =>
      rw [if_pos hf, hf, Nat.succ_mul]
      exact ⟨emitted, hscan, by rw [← Nat.add_assoc, hsum, Nat.succ_mul (i + 1)]⟩
    · next hf =>
      rw [if_neg hf, Nat.one_mul, Bool.eq_not_of_ne hf]
      refine ⟨emitted ++ [runEnding f i * t], by rw [hscan, List.append_assoc, List.singleton_append], ?_⟩
      rw [List.sum_append, List.sum_singleton, hsum, Nat.succ_mul (i + 1)]

/-- A frame with the stop bit in bit 8 is that of its low byte (rule R61). -/
theorem frameWord_setWidth {v : FrameWord} (hstop : v.getLsbD 8 = true) : frameWord (v.setWidth 8) = v := by
  apply BitVec.eq_of_getLsbD_eq
  intro j hj
  rw [frameWord_bit]
  split
  · next hlt => simp [hlt]
  · next hge =>
    obtain rfl : j = 8 := by omega
    rw [hstop]
    rfl

end

section
variable {wT : Nat} {r : Block wT} {inp : Inputs wT} {is : List (Inputs wT)}

/-! ## The step count of an isolated frame (rule R102) -/

/-- The steps until a block is idle whose consumer is always ready and whose host offers nothing: the advance steps left,
and a transfer for each delay owed. -/
def Block.stepsLeft {wT : Nat} (r : Block wT) : Nat := r.advancesLeft + r.owed.length

/-- A block is idle exactly if no step is left (rule R119). -/
theorem Block.stepsLeft_eq_zero_iff : r.stepsLeft = 0 ↔ r.idle = true := by
  rw [Block.stepsLeft, Nat.add_eq_zero_iff, List.length_eq_zero_iff]
  refine ⟨fun h => Block.idle_of_owed_nil h.2, fun h => ⟨Block.advancesLeft_of_not_busy ?_, Block.owed_of_idle h⟩⟩
  simpa using (Bool.and_eq_true_iff.1 h).1

/-- A sample in which the consumer is ready and the host does nothing. -/
def Inputs.quiet {wT : Nat} (i : Inputs wT) : Prop := i.rst = false ∧ i.inValid = false ∧ i.outReady = true

/-- In a quiet step a block does one of the steps left, an advance or a transfer, unless it is idle. -/
theorem Block.Inv.stepsLeft_moved (h : r.Inv) (hq : inp.quiet) : (r.moved inp).stepsLeft = r.stepsLeft - 1 := by
  obtain ⟨hrst, hvalid, hready⟩ := hq
  have hnone : r.started inp = [] := Block.started_of_not_accepts (by simp [Block.accepts, hvalid])
  have hadvances := h.advancesLeft_moved hrst
  have howed := congrArg List.length (h.received_owed_moved hrst)
  simp only [hnone, encodeAll, List.flatMap_nil, List.length_append, List.length_map, List.length_nil,
    Block.received_length hrst, hready, Bool.and_true] at hadvances howed
  rw [Block.stepsLeft, Block.stepsLeft]
  rcases Bool.eq_false_or_eq_true r.idle with hidle | hidle
  · have hzero := Block.stepsLeft_eq_zero_iff.2 hidle
    rw [Block.stepsLeft] at hzero
    omega
  · have hone : (if r.adv then 1 else 0) + r.outv.toNat = 1 := by
      rcases Bool.eq_false_or_eq_true r.outv with hv | hv
      · simp [Block.not_adv_of_outv hv, hv]
      · have hb : r.busy = true := by simpa [Block.idle, hv] using hidle
        simp [Block.adv_iff.2 ⟨hb, h.i1 hb, hv⟩, hv]
    omega

/-- Over quiet samples each of them is one of the steps left. -/
theorem Block.Inv.stepsLeft_runRegs (h : r.Inv) (hq : ∀ i ∈ is, i.quiet) (n : Nat) :
    (Block.runRegs n r is).stepsLeft = r.stepsLeft - is.length := by
  induction is generalizing r n with
  | nil => rfl
  | cons i is ih =>
    obtain ⟨hi, his⟩ := List.forall_mem_cons.1 hq
    rw [Block.runRegs, Block.registerTransfer_of_no_reset hi.1, ih (h.moved i) his, h.stepsLeft_moved hi,
      List.length_cons, Nat.sub_sub, Nat.add_comm]

/-- An idle block that accepts a command with `t != 0` has ten advance steps to do and its delays to transfer (rules
R84, R94). -/
theorem Block.stepsLeft_accepted (hidle : r.idle = true) (hready : r.inReady = true) (hrst : inp.rst = false)
    (hvalid : inp.inValid = true) (ht : inp.inT ≠ 0#wT) :
    (r.moved inp).stepsLeft = 10 + delayCount inp.inByte := by
  obtain ⟨hb, hv⟩ : r.busy = false ∧ r.outv = false := by simpa [Block.idle] using hidle
  have hadvances := (Block.inv_of_not_busy hb).advancesLeft_moved hrst
  have howed := congrArg List.length (Block.accepted_owed hready hrst hvalid)
  simp only [Block.not_adv_of_ready hready, Block.started_of_ready hready hrst hvalid ht,
    Block.advancesLeft_of_not_busy hb, Block.owed_of_idle hidle, Block.received_length hrst, hv, Bool.false_and,
    Bool.toNat_false, List.length_append, List.length_map, List.length_singleton, List.length_nil,
    encodeByte_length _ (bitTime_pos ht), Bool.false_eq_true, if_false] at hadvances howed
  rw [Block.stepsLeft]
  omega

end

/-! ## The obligations on a whole frame -/

/-- Settles O37: the scan of the frame is taken up at IDX with the run in ACC, which is the run that ends there. -/
theorem emittedPlusAccumulated : Obligations.EmittedPlusAccumulated := by
  intro wT r hinv hbusy
  obtain ⟨k, hrun⟩ := hinv.i3_i4 hbusy
  obtain ⟨emitted, hscan, hsum⟩ := scan_taken_up r.t.toNat (framePos r.frame) (hinv.i2_idx hbusy)
  rw [← hrun.eq_runEnding, ← hrun.acc_eq] at hscan hsum
  refine ⟨emitted, ?_, hsum⟩
  rw [encodeByte_eq_scan _ (bitTime_pos (hinv.i2_t hbusy)), frameWord_setWidth (hinv.stop hbusy), Block.toEmit,
    if_pos hbusy, ← hrun.framePos_idx]
  exact hscan

/-- Settles O51: after the acceptance `10 + n(b)` steps are left, each sample is one of them, and the block is idle
exactly if none is left. -/
theorem isolatedFrameStepCount : Obligations.IsolatedFrameStepCount := by
  intro wT n r first rest hidle hfault hrst hvalid ht hrest
  have hb : r.busy = false := by simpa using (Bool.and_eq_true_iff.1 hidle).1
  have hinv : (r.moved first).Inv := (Block.inv_of_not_busy hb).moved first
  rw [← Block.stepsLeft_eq_zero_iff, Block.runRegs, Block.registerTransfer_of_no_reset hrst,
    hinv.stepsLeft_runRegs hrest,
    Block.stepsLeft_accepted hidle (Block.inReady_iff.2 ⟨hb, hfault⟩) hrst hvalid ht, List.length_cons]
  omega

end Sys2Proof.Machine
end
